-- ==== Sys2Proof/Word.lean ====
section
/-! DEFINITION. The word types of QSEC (00_scope.md R7): one abbreviation per width the spec names. -/

namespace Sys2Proof

/-- One payload element of `PBUF`, `CPW` = 21 bits (R7, R92). -/
abbrev Elem := BitVec 21

/-- One codeword of `CWBUF`, `CWW` = 16 bits (R7, R94). -/
abbrev Codeword := BitVec 16

/-- One 8-bit group of `OBUF` (R25). -/
abbrev Group := BitVec 8

/-- One host register or data word, `HDW` = 32 bits (R7). -/
abbrev Word := BitVec 32

/-- A host register index, `HIW` = 4 bits (R7, R63). -/
abbrev RegIdx := BitVec 4

/-- A buffer read index or a codeword count, `CWNW` = 18 bits (R7). -/
abbrev BufIdx := BitVec 18

/-- An ECI designator value, `DESW` = 24 bits (R7, R93). -/
abbrev Desig := BitVec 24

end Sys2Proof
end

