-- ==== Sys2Proof/Syntax.lean ====
section
/-! DEFINITION. The syntax of QSEC: encoding modes, host registers, the instructions (one constructor per row of
spec/opcode_table.json), the host transactions and events that carry them, and the assembler's statements. -/

namespace Sys2Proof

/-- The closed enumeration of encoding modes (00_scope.md R12). -/
inductive Mode where
  | numeric
  | alphanumeric
  | byte
  | kanji
  | eci
deriving DecidableEq, Repr

/-- The sixteen host registers (20_memory.md R66). -/
inductive Reg where
  | cmd | status | finfo | pdata | plen | eci | mode | cwn
  | cwidx | cwdata | bitn | obidx | obdata | ver | cfg | id
deriving DecidableEq, Repr

/-- The instructions: the eleven command words (30_encoding.md R100), the five host writes (44_control_and_host.md
R191 to R193) and the sixteen host reads (R194). An operand is the field of the written word that the spec does not
ignore, so its width is its type and no term is ill formed. -/
inductive Instr where
  | selmode
  | encS
  | encN
  | encA
  | encB
  | encE
  | encK
  | tobits
  | estver
  | pclr
  | srst
  | push (e : Elem)
  | seteci (val : Desig)
  | clreci (val : Desig)
  | setcwidx (n : BufIdx)
  | setobidx (n : BufIdx)
  | rdCmd
  | rdStatus
  | rdFinfo
  | rdPdata
  | rdPlen
  | rdEci
  | rdMode
  | rdCwn
  | rdCwidx
  | rdCwdata
  | rdBitn
  | rdObidx
  | rdObdata
  | rdVer
  | rdCfg
  | rdId
deriving DecidableEq, Repr

/-- One host transaction as it reaches the block (00_scope.md R10): `HostRead(idx)` or `HostWrite(idx, v)`. There is
no narrower access (20_memory.md R63). -/
inductive HostTxn where
  | read (idx : RegIdx)
  | write (idx : RegIdx) (v : Word)
deriving DecidableEq, Repr

/-- What the world outside the block can do to it: a host transaction, or a pulse of the reset input `rst`
(70_reset_and_hazards.md R230). -/
inductive HostEvent where
  | txn (t : HostTxn)
  | hwReset
deriving DecidableEq, Repr

/-- One line of assembler text (30_encoding.md R104) or one pseudo-instruction (R105). Numbers are written as the
assembler reads them; `Stmt.wf` bounds them. -/
inductive Stmt where
  | command (i : Instr)
  | push (v : Nat)
  | seteci (n : Nat)
  | clreci
  | setcwidx (n : Nat)
  | setobidx (n : Nat)
  | rd (r : Reg)
  | pushs (text : List Char)
  | load (text : List Char)
  | pipe
  | encode (m : Mode)
  | rdcw (n : Nat)
  | rdob (n : Nat)
deriving DecidableEq, Repr

end Sys2Proof
end

