-- ==== Sys2Proof/Config.lean ====
section
/-! DEFINITION. What is fixed for the life of the hardware (10_state.md R31): the fixed parameters (00_scope.md R7), the
identification constants (10_state.md R30) and the open parameters (00_scope.md R8), which no proof can evaluate. -/

namespace Sys2Proof.Config

/-- `LENW`, the width of `PLEN` (R7). -/
abbrev lenW : Nat := 16

/-- `CPW`, the width of a payload element (R7). -/
abbrev cpW : Nat := 21

/-- `DESW`, the width of `ECI.VAL` (R7). -/
abbrev desW : Nat := 24

/-- `CWW`, the width of a codeword (R7). -/
abbrev cwW : Nat := 16

/-- `CWNW`, the width of `CWN`, `OBN`, `CWIDX`, `OBIDX` (R7). -/
abbrev cwnW : Nat := 18

/-- `BITNW`, the width of the value read from `BITN` (R7). -/
abbrev bitnW : Nat := 21

/-- `MAXLEN` = 2^LENW - 1, the depth of `PBUF` (R7). -/
abbrev maxLen : Nat := 65535

/-- `CWDEPTH` = 2·MAXLEN + 5, the depth of `CWBUF` and of `OBUF` (R7). -/
abbrev cwDepth : Nat := 131075

/-- The constant read from `ID` (R30). -/
abbrev idWord : Word := 0x51525331#32

/-- The constant read from `CFG`: CPW·2^24 + CWW·2^16 + DESW·2^8 + LENW (R30). -/
abbrev cfgWord : Word := 0x15101810#32

/-- One inclusive range of code point values. -/
structure CodeRange where
  lo : Nat
  hi : Nat
deriving DecidableEq, Repr

/-- The open parameters (R8). `vtMid` holds `VT_HI[3]` to `VT_HI[13]` in that order. -/
structure Params where
  kanjiSet : List CodeRange
  kanjiLead : Elem → Option Group
  emptyMode : Mode
  vtMid : List Nat

/-- A range of `KANJI_SET` holds no value below 0x80 and only Unicode scalar values (R8, R11). A range with `hi < lo`
holds no value at all. -/
def CodeRange.ok (r : CodeRange) : Bool :=
  decide (r.hi < r.lo) ||
    (decide (0x80 ≤ r.lo) &&
      (decide (r.hi ≤ 0xD7FF) || (decide (0xE000 ≤ r.lo) && decide (r.hi ≤ 0x10FFFF))))

/-- The constraints of R8: `KANJI_SET` as above, and 32 < VT_HI[3] < … < VT_HI[13] < 437. `EMPTY_MODE` is a mode by its
type, and nothing relates `KANJI_LEAD` to `KANJI_SET`. -/
def Params.admissible (p : Params) : Bool :=
  p.kanjiSet.all CodeRange.ok &&
    (decide (p.vtMid.length = 11) && decide ((32 :: p.vtMid ++ [437]).Pairwise (· < ·)))

/-- Some admissible parameters, used only to show that there are any: no proof can tell the hardware's parameters
from others. -/
def someParams : Params :=
  { kanjiSet := []
    kanjiLead := fun _ => none
    emptyMode := .numeric
    vtMid := [40, 80, 120, 160, 200, 240, 280, 320, 360, 400, 436] }

theorem someParams_admissible : someParams.admissible = true := by decide

/-- The hardware's own open parameters with their constraints: opaque, so a claim about them holds for every admissible
choice (R8; DESIGN CHOICE of form, log 5). -/
opaque chip [Inhabited { p : Params // p.admissible = true }] : { p : Params // p.admissible = true }

/-- The open parameters of this hardware. -/
def params : Params := (@chip ⟨⟨someParams, someParams_admissible⟩⟩).val

theorem params_admissible : params.admissible = true :=
  (@chip ⟨⟨someParams, someParams_admissible⟩⟩).property

end Sys2Proof.Config
end

