-- ==== Sys2Proof/Decode.lean ====
section
/-! DEFINITION. From a host transaction to an instruction and back: the command table (30_encoding.md R100), the
register map's fields (20_memory.md R66), the encoder, and the host's question about one word of the opcode table. -/

namespace Sys2Proof

/-- The 4-bit indicator of a mode (00_scope.md R12, 30_encoding.md R91). -/
def Mode.indicator : Mode → BitVec 4
  | .numeric => 1#4
  | .alphanumeric => 2#4
  | .byte => 4#4
  | .kanji => 8#4
  | .eci => 7#4

/-- The index of a host register (20_memory.md R66). -/
def Reg.idx : Reg → RegIdx
  | .cmd => 0x0#4
  | .status => 0x1#4
  | .finfo => 0x2#4
  | .pdata => 0x3#4
  | .plen => 0x4#4
  | .eci => 0x5#4
  | .mode => 0x6#4
  | .cwn => 0x7#4
  | .cwidx => 0x8#4
  | .cwdata => 0x9#4
  | .bitn => 0xA#4
  | .obidx => 0xB#4
  | .obdata => 0xC#4
  | .ver => 0xD#4
  | .cfg => 0xE#4
  | .id => 0xF#4

/-- The command set (30_encoding.md R100): a command word matches a row when all its 32 bits equal the row's. -/
def commandTable : List (Word × Instr) :=
  [ (0x00000010#32, .selmode)
  , (0x00000020#32, .encS)
  , (0x00000021#32, .encN)
  , (0x00000022#32, .encA)
  , (0x00000024#32, .encB)
  , (0x00000027#32, .encE)
  , (0x00000028#32, .encK)
  , (0x00000030#32, .tobits)
  , (0x00000040#32, .estver)
  , (0x00000050#32, .pclr)
  , (0x000000F0#32, .srst) ]

/-- Why a transaction is no instruction of the table. Both have an effect the spec gives: `illegalCommand` raises CMD
(R101, R202), a write to a register that is read only does nothing (R190) (DEDUCED, log 8). -/
inductive DecodeReject where
  | illegalCommand (w : Word)
  | readOnlyWrite (idx : RegIdx)
deriving DecidableEq, Repr

/-- A word written to `CMD` (R100, R101). -/
def decodeCommand (w : Word) : Except DecodeReject Instr :=
  match commandTable.find? (fun row => row.1 == w) with
  | some row => .ok row.2
  | none => .error (.illegalCommand w)

/-- A word written to `ECI`: bit 31 is `V`, bits 23 to 0 are `VAL`, bits 30 to 24 are ignored (R93, R192). -/
def decodeEci (v : Word) : Instr :=
  if v.getLsbD 31 then .seteci (v.extractLsb' 0 24) else .clreci (v.extractLsb' 0 24)

/-- `HostWrite(idx, v)` (44_control_and_host.md R190). -/
def decodeWrite (idx : RegIdx) (v : Word) : Except DecodeReject Instr :=
  match idx with
  | 0x0#4 => decodeCommand v
  | 0x3#4 => .ok (.push (v.extractLsb' 0 21))
  | 0x5#4 => .ok (decodeEci v)
  | 0x8#4 => .ok (.setcwidx (v.extractLsb' 0 18))
  | 0xB#4 => .ok (.setobidx (v.extractLsb' 0 18))
  | other => .error (.readOnlyWrite other)

/-- `HostRead(idx)` (44_control_and_host.md R194): every index is assigned. -/
def decodeRead (idx : RegIdx) : Instr :=
  match idx with
  | 0x0#4 => .rdCmd
  | 0x1#4 => .rdStatus
  | 0x2#4 => .rdFinfo
  | 0x3#4 => .rdPdata
  | 0x4#4 => .rdPlen
  | 0x5#4 => .rdEci
  | 0x6#4 => .rdMode
  | 0x7#4 => .rdCwn
  | 0x8#4 => .rdCwidx
  | 0x9#4 => .rdCwdata
  | 0xA#4 => .rdBitn
  | 0xB#4 => .rdObidx
  | 0xC#4 => .rdObdata
  | 0xD#4 => .rdVer
  | 0xE#4 => .rdCfg
  | _ => .rdId

/-- The instruction of any transaction, or the name of the reason there is none. -/
def decode : HostTxn → Except DecodeReject Instr
  | .read idx => .ok (decodeRead idx)
  | .write idx v => decodeWrite idx v

/-- A command word from its fields: `Z` = 0 in bits 31 to 8, `OP` in bits 7 to 4, `M` in bits 3 to 0 (30_encoding.md R90). -/
def commandWord (op m : BitVec 4) : Word := 0#24 ++ op ++ m

/-- An `ECI` word from its fields, the ignored bits 30 to 24 zero (R93). -/
def eciWord (v : Bool) (val : Desig) : Word := BitVec.ofBool v ++ 0#7 ++ val

/-- The transaction of an instruction, its ignored bits zero (30_encoding.md R90, R104, 20_memory.md R66). -/
def encode : Instr → HostTxn
  | .selmode => .write 0x0#4 (commandWord 1#4 0#4)
  | .encS => .write 0x0#4 (commandWord 2#4 0#4)
  | .encN => .write 0x0#4 (commandWord 2#4 Mode.numeric.indicator)
  | .encA => .write 0x0#4 (commandWord 2#4 Mode.alphanumeric.indicator)
  | .encB => .write 0x0#4 (commandWord 2#4 Mode.byte.indicator)
  | .encE => .write 0x0#4 (commandWord 2#4 Mode.eci.indicator)
  | .encK => .write 0x0#4 (commandWord 2#4 Mode.kanji.indicator)
  | .tobits => .write 0x0#4 (commandWord 3#4 0#4)
  | .estver => .write 0x0#4 (commandWord 4#4 0#4)
  | .pclr => .write 0x0#4 (commandWord 5#4 0#4)
  | .srst => .write 0x0#4 (commandWord 15#4 0#4)
  | .push e => .write 0x3#4 (e.setWidth 32)
  | .seteci val => .write 0x5#4 (eciWord true val)
  | .clreci val => .write 0x5#4 (eciWord false val)
  | .setcwidx n => .write 0x8#4 (n.setWidth 32)
  | .setobidx n => .write 0xB#4 (n.setWidth 32)
  | .rdCmd => .read 0x0#4
  | .rdStatus => .read 0x1#4
  | .rdFinfo => .read 0x2#4
  | .rdPdata => .read 0x3#4
  | .rdPlen => .read 0x4#4
  | .rdEci => .read 0x5#4
  | .rdMode => .read 0x6#4
  | .rdCwn => .read 0x7#4
  | .rdCwidx => .read 0x8#4
  | .rdCwdata => .read 0x9#4
  | .rdBitn => .read 0xA#4
  | .rdObidx => .read 0xB#4
  | .rdObdata => .read 0xC#4
  | .rdVer => .read 0xD#4
  | .rdCfg => .read 0xE#4
  | .rdId => .read 0xF#4

/-- A transaction with the bits cleared that the register map says are ignored on write (20_memory.md R66). -/
def HostTxn.clearIgnored : HostTxn → HostTxn
  | .read idx => .read idx
  | .write idx v =>
    match idx with
    | 0x3#4 => .write idx (v &&& 0x001FFFFF#32)
    | 0x5#4 => .write idx (v &&& 0x80FFFFFF#32)
    | 0x8#4 => .write idx (v &&& 0x0003FFFF#32)
    | 0xB#4 => .write idx (v &&& 0x0003FFFF#32)
    | _ => .write idx v

/-- The transaction that the opcode table means by a word of `nbits` bits. The table numbers the bits of the written
word only and leaves the register to its "target": the rows that give a word bits are the eleven command words (target
`CMD`) and `SETECI`, `CLRECI` (target `ECI`). DESIGN CHOICE (log 7). -/
def tableTxn (nbits w : Nat) : HostTxn :=
  let v : Word := BitVec.ofNat 32 (w % 2 ^ nbits)
  if commandTable.any (fun row => row.1 == v) then .write 0x0#4 v else .write 0x5#4 v

/-- The instruction that the decoder reads from a word of the opcode table (log 7). -/
def decodeTableWord (nbits w : Nat) : Option Instr :=
  match decode (tableTxn nbits w) with
  | .ok i => some i
  | .error _ => none

end Sys2Proof
end

