-- ==== Sys2Proof/Machine/State.lean ====
section
/-! DEFINITION. The state of QSEC as plain data (10_state.md R20), its reset value (R38), and the reasons a step could
stop. The counts `PLEN`, `CWN`, `OBN` are the lengths of the buffers (DEDUCED, log 4; accessors in Ops.lean). -/

namespace Sys2Proof.Machine

/-- The five fault causes (60_exceptions.md R201). -/
inductive Cause where
  | cmd
  | mode
  | pfull
  | map
  | ovf
deriving DecidableEq, Repr

/-- Register `ECI`: the optional designator (R22). -/
structure Eci where
  v : Bool
  val : Desig
deriving DecidableEq, Repr

/-- Register `STATUS` (R27). `cause = none` is the code 0, "no fault" (DEDUCED, log 13). -/
structure Status where
  halt : Bool
  cause : Option Cause
deriving DecidableEq, Repr

/-- The whole state: the spec's (R20), then the model's own two fields of the host port (logs 1 and 3). -/
structure State where
  /-- `PBUF[0..PLEN-1]` (R21) -/
  pbuf : List Elem
  /-- `ECI` (R22) -/
  eci : Eci
  /-- `MODE` (R23); `none` is the spec's "no mode selected", code 0 (DEDUCED, log 13) -/
  mode : Option Mode
  /-- `CWBUF[0..CWN-1]` (R24) -/
  cwbuf : List Codeword
  /-- `OBUF[0..OBN-1]` (R25) -/
  obuf : List Group
  /-- `VIDX` (R26) -/
  vidx : BitVec 4
  /-- `STATUS` (R27) -/
  status : Status
  /-- `FINFO` (R28) -/
  finfo : Word
  /-- `CWIDX` (R29) -/
  cwidx : BufIdx
  /-- `OBIDX` (R29) -/
  obidx : BufIdx
  /-- the host's events not yet served, oldest first (R70; DESIGN CHOICE, log 1) -/
  hostIn : List HostEvent
  /-- the value the last `HostRead` returned (R194; DESIGN CHOICE at reset, log 3) -/
  hrdata : Word
deriving DecidableEq, Repr

/-- The reset state (10_state.md R38, 70_reset_and_hazards.md R230), with no event pending and nothing read yet. -/
def State.reset : State :=
  { pbuf := []
    eci := { v := false, val := 0#24 }
    mode := none
    cwbuf := []
    obuf := []
    vidx := 0#4
    status := { halt := false, cause := none }
    finfo := 0#32
    cwidx := 0#18
    obidx := 0#18
    hostIn := []
    hrdata := 0#32 }

/-- The canonical form of the buffers: each holds no more elements than its depth (10_state.md R39 (a)). A buffer is the
list of its elements in index order, so equal contents are equal lists, and nothing at or above the count is held. -/
abbrev Memory.wf (s : State) : Prop :=
  s.pbuf.length ≤ Config.maxLen ∧ s.cwbuf.length ≤ Config.cwDepth ∧ s.obuf.length ≤ Config.cwDepth

/-- Reasons a step stops with a fault: none. Every fault of the spec sets `STATUS` and leads to a next state
(60_exceptions.md R205; DEDUCED, log 9), and no transaction lacks an effect, so no one raises a stop here. -/
inductive Fault where
deriving DecidableEq, Repr

/-- Reasons a step is refused. -/
inductive Refusal where
  /-- Raised by an arm of `exec` whose instruction has no meaning yet (safe). No arm raises it now. -/
  | notModelled (mnemonic : String)
deriving DecidableEq, Repr

end Sys2Proof.Machine
end

