-- ==== Sys2Proof/Machine/Ops.lean ====
section
/-! DEFINITION. The named operations over registers and buffers (00_scope.md R10), raising a fault as one shared
operation (60_exceptions.md R205), the way back from it (soft and hardware reset, R208), and how a command ends. -/

namespace Sys2Proof.Machine

/-- What one step or instruction answers. -/
abbrev Result := Host.Outcome State Fault Refusal

/-! ### Counts and registers as the host sees them

A count is cut to its register's width, which loses nothing in a reachable state (DESIGN CHOICE, log 6). -/

/-- `PLEN` (R21). -/
def State.plen (s : State) : BitVec 16 := BitVec.ofNat 16 s.pbuf.length

/-- `CWN` (R24). -/
def State.cwn (s : State) : BitVec 18 := BitVec.ofNat 18 s.cwbuf.length

/-- `OBN` (R25). -/
def State.obn (s : State) : BitVec 18 := BitVec.ofNat 18 s.obuf.length

/-- `BITN` = 8·OBN (R25, R66). -/
def State.bitn (s : State) : BitVec 21 := BitVec.ofNat 21 (8 * s.obuf.length)

/-- `MODE` as four bits: 0 when no mode is selected (R23). -/
def State.modeBits (s : State) : BitVec 4 :=
  match s.mode with
  | none => 0#4
  | some m => m.indicator

/-- The 4-bit code of a fault cause (60_exceptions.md R201). -/
def Cause.code : Cause → BitVec 4
  | .cmd => 1#4
  | .mode => 2#4
  | .pfull => 3#4
  | .map => 4#4
  | .ovf => 5#4

/-! ### Writes of one register or buffer -/

/-- `MemWrite(PBUF, PLEN, e); PLEN <- PLEN + 1` (44_control_and_host.md R191). -/
def appendElem (e : Elem) (s : State) : State := { s with pbuf := s.pbuf ++ [e] }

/-- `PLEN <- 0` (R195). -/
def clearPayload (s : State) : State := { s with pbuf := [] }

/-- `ECI.V <- v; ECI.VAL <- val` (R192). -/
def writeEci (v : Bool) (val : Desig) (s : State) : State := { s with eci := { v := v, val := val } }

/-- `MODE <- m` (40_mode_selector.md R121). -/
def writeMode (m : Mode) (s : State) : State := { s with mode := some m }

/-- `CWN <- 0` (41_segment_encoder.md R140). -/
def clearCodewords (s : State) : State := { s with cwbuf := [] }

/-- `emit(v)`: `MemWrite(CWBUF, CWN, zext(v)); CWN <- CWN + 1` (00_scope.md R10, 20_memory.md R69). -/
def emit (v : Nat) (s : State) : State := { s with cwbuf := s.cwbuf ++ [BitVec.ofNat 16 v] }

/-- `OBN <- 0` (42_bit_serializer.md R171). -/
def clearGroups (s : State) : State := { s with obuf := [] }

/-- `outbyte(b)`: `MemWrite(OBUF, OBN, b); OBN <- OBN + 1` (00_scope.md R10, 20_memory.md R69). -/
def outByte (b : Group) (s : State) : State := { s with obuf := s.obuf ++ [b] }

/-- `VIDX <- i` (43_version_estimator.md R182). -/
def writeVidx (i : BitVec 4) (s : State) : State := { s with vidx := i }

/-- `CWIDX <- n` (44_control_and_host.md R193). -/
def writeCwidx (n : BufIdx) (s : State) : State := { s with cwidx := n }

/-- `OBIDX <- n` (R193). -/
def writeObidx (n : BufIdx) (s : State) : State := { s with obidx := n }

/-- A `HostRead` returns `v` to the host and changes nothing of the machine (20_memory.md R65, R194). -/
def reply (v : Word) (s : State) : State := { s with hrdata := v }

/-! ### Faults -/

/-- The state change of `raise Fault(cause, info)` (60_exceptions.md R205). -/
def enterFault (cause : Cause) (info : Word) (s : State) : State :=
  { s with
    status := { halt := true, cause := some cause }
    finfo := info
    cwbuf := if cause = .map then [] else s.cwbuf
    obuf := if cause = .ovf then [] else s.obuf }

/-- `raise Fault(cause, info)` inside a command: the command goes no further (R205). In the body of a command `.ok` is
"carry on from this state" and `.error` is "the command ended here with a fault recorded". -/
def raise (cause : Cause) (info : Word) (s : State) : Except State State :=
  .error (enterFault cause info s)

/-- The end of a command's body: with or without a fault, the transaction is complete (20_memory.md R70). -/
def conclude (r : Except State State) : Result :=
  match r with
  | .ok s => .next s
  | .error s => .next s

/-- Commands, pushes and `ECI` writes have no effect of any kind while halted (60_exceptions.md R209). -/
def whenRunning (s : State) (r : Result) : Result :=
  if s.status.halt then .next s else r

/-! ### Reset -/

/-- Every piece of the spec's state at its reset value (44_control_and_host.md R196, 70_reset_and_hazards.md R230,
R231). The host's own side of the port, its events to come and the value it last read, is not touched (DESIGN CHOICE,
log 10). -/
def resetMachine (s : State) : State :=
  { State.reset with hostIn := s.hostIn, hrdata := s.hrdata }

/-! ### The host port -/

/-- The oldest pending host event and the state without it (20_memory.md R70). -/
def takeEvent (s : State) : Option (HostEvent × State) :=
  match s.hostIn with
  | [] => none
  | e :: rest => some (e, { s with hostIn := rest })

/-- `s` with one more event before all pending ones. -/
def placeEvent (e : HostEvent) (s : State) : State := { s with hostIn := e :: s.hostIn }

end Sys2Proof.Machine
end

