-- ==== Sys2Proof/Machine/Operands.lean ====
section
/-! DEFINITION. The operand forms: the implicit operands of the commands (30_encoding.md R99), the character classes of
a payload element (00_scope.md R11), the host's read windows (10_state.md R29) and the derived bit string (R25). -/

namespace Sys2Proof.Machine

/-! ### Character classes (00_scope.md R11) -/

/-- `DIGIT(c)`. -/
def isDigit (c : Elem) : Bool := decide (0x30 ≤ c.toNat) && decide (c.toNat ≤ 0x39)

/-- `UPPER(c)`. -/
def isUpper (c : Elem) : Bool := decide (0x41 ≤ c.toNat) && decide (c.toNat ≤ 0x5A)

/-- `LOWER(c)`. -/
def isLower (c : Elem) : Bool := decide (0x61 ≤ c.toNat) && decide (c.toNat ≤ 0x7A)

/-- `ALNUM(c)`. -/
def isAlnum (c : Elem) : Bool := isDigit c || isUpper c || isLower c

/-- `SCALAR(c)`. -/
def isScalar (c : Elem) : Bool :=
  decide (c.toNat ≤ 0xD7FF) || (decide (0xE000 ≤ c.toNat) && decide (c.toNat ≤ 0x10FFFF))

/-- `KANJI(c)`: membership of `KANJI_SET` (40_mode_selector.md R123). -/
def isKanji (p : Config.Params) (c : Elem) : Bool :=
  p.kanjiSet.any (fun r => decide (r.lo ≤ c.toNat) && decide (c.toNat ≤ r.hi))

/-! ### Implicit operands (30_encoding.md R99) -/

/-- The designator that is supplied to an encode: `ECI.VAL` exactly when `ECI.V = 1` (R99, R22). -/
def State.designator (s : State) : Option Desig :=
  if s.eci.v then some s.eci.val else none

/-! ### Host windows (10_state.md R29) -/

/-- `CWDATA`: `CWBUF[CWIDX]` when `CWIDX < CWN`, else 0. -/
def State.cwdata (s : State) : Codeword := s.cwbuf.getD s.cwidx.toNat 0#16

/-- `OBDATA`: `OBUF[OBIDX]` when `OBIDX < OBN`, else 0. -/
def State.obdata (s : State) : Group := s.obuf.getD s.obidx.toNat 0#8

/-- `ECI` as read: `V·2^31 + VAL` (44_control_and_host.md R192). -/
def State.eciBits (s : State) : Word := eciWord s.eci.v s.eci.val

/-! ### The bit string (10_state.md R25) -/

/-- `BITS`: bit `k` is bit `7 - k mod 8` of `OBUF[k div 8]`. -/
def State.bits (s : State) : List Bool :=
  (List.range (8 * s.obuf.length)).map (fun k => (s.obuf.getD (k / 8) 0#8).getLsbD (7 - k % 8))

end Sys2Proof.Machine
end

