-- ==== Sys2Proof/Machine/Control.lean ====
section
/-! DEFINITION. The control commands PCLR and SRST (44_control_and_host.md R195, R196), hardware reset
(70_reset_and_hazards.md R230), and the transactions that are no row of the opcode table: an illegal command word
(60_exceptions.md R202) and a write to a read-only register (R190). -/

namespace Sys2Proof.Machine

/-- `PCLR` (R195). -/
def execPclr (s : State) : Result := whenRunning s (.next (clearPayload s))

/-- `SRST`, executed even while halted (R190, R196). -/
def execSrst (s : State) : Result := .next (resetMachine s)

/-- A pulse of `rst`: every piece of state at its reset value (R230). -/
def execHwReset (s : State) : Result := .next (resetMachine s)

/-- A word written to `CMD` that is none of the eleven commands raises CMD, unless halted (R101, R190, R202). -/
def execIllegalCommand (w : Word) (s : State) : Result := whenRunning s (.next (enterFault .cmd w s))

/-- A write to a read-only register is ignored and is no fault (R190). -/
def execReadOnlyWrite (s : State) : Result := .next s

/-- What a transaction does that is no instruction of the table. -/
def execRejected (why : DecodeReject) (s : State) : Result :=
  match why with
  | .illegalCommand w => execIllegalCommand w s
  | .readOnlyWrite _ => execReadOnlyWrite s

end Sys2Proof.Machine
end

