-- ==== Sys2Proof/Machine/Encode.lean ====
section
/-! DEFINITION. The segment encoder, commands ENC.N, ENC.A, ENC.B, ENC.K, ENC.E, ENC.S (41_segment_encoder.md). -/

namespace Sys2Proof.Machine

/-- `COUNT(m, n)`, the character-count indicator (R142). -/
def emitCount (m : Mode) (n : Nat) (s : State) : State :=
  match m with
  | .numeric => emit n s
  | .alphanumeric => emit ((n + 1) / 2) s
  | .byte => emit n s
  | .kanji => emit (n % 256) (emit (n / 256) s)
  | .eci => s

/-- The optional designator, in every mode, high part first (R143, 20_memory.md R61). -/
def emitDesignator (s : State) : State :=
  match s.designator with
  | none => s
  | some d => emit (d.toNat % 256) (emit (d.toNat / 256) s)

/-- `PAY(m, i, c)`: what element `c` at index `i` adds (R144, R145, R147, R148, R149). -/
def pay (p : Config.Params) (m : Mode) (i : Nat) (c : Elem) (s : State) : Except State State :=
  match m with
  | .numeric => if isDigit c then .ok (emit (c.toNat - 0x30) s) else .ok s
  | .alphanumeric =>
    if isDigit c then .ok (emit (c.toNat - 0x30) s)
    else if isUpper c then .ok (emit (c.toNat - 0x41 + 10) s)
    else if isLower c then .ok (emit (c.toNat - 0x61 + 36) s)
    else .ok s
  | .byte => if c.toNat ≤ 0xFF then .ok (emit c.toNat s) else raise .map (BitVec.ofNat 32 i) s
  | .kanji =>
    match p.kanjiLead c with
    | some b => .ok (emit (b.toNat % 256) (emit (b.toNat / 256) s))
    | none => raise .map (BitVec.ofNat 32 i) s
  | .eci => .ok s

/-- `for i in 0..n-1: PAY(m, i, P[i])`, from index `i` on; the first fault ends it (R140, R203). -/
def payLoop (p : Config.Params) (m : Mode) : Nat → List Elem → State → Except State State
  | _, [], s => .ok s
  | i, c :: cs, s =>
    match pay p m i c s with
    | .ok s' => payLoop p m (i + 1) cs s'
    | .error s' => .error s'

/-- The sequence before the payload codewords: steps 1 to 3 (R140 to R143). -/
def emitHeader (m : Mode) (s : State) : State :=
  emitDesignator (emitCount m s.pbuf.length (emit m.indicator.toNat (clearCodewords s)))

/-- `ENC(m)`: indicator, count, designator, payload codewords, in that order (R140). -/
def encodeFrame (p : Config.Params) (m : Mode) (s : State) : Except State State :=
  payLoop p m 0 s.pbuf (emitHeader m s)

/-- `ENC.N` (R150). -/
def execEncN (s : State) : Result := whenRunning s (conclude (encodeFrame Config.params .numeric s))

/-- `ENC.A` (R151). -/
def execEncA (s : State) : Result := whenRunning s (conclude (encodeFrame Config.params .alphanumeric s))

/-- `ENC.B` (R152). -/
def execEncB (s : State) : Result := whenRunning s (conclude (encodeFrame Config.params .byte s))

/-- `ENC.K` (R153). -/
def execEncK (s : State) : Result := whenRunning s (conclude (encodeFrame Config.params .kanji s))

/-- `ENC.E` (R154). -/
def execEncE (s : State) : Result := whenRunning s (conclude (encodeFrame Config.params .eci s))

/-- The body of `ENC.S`: the mode held in `MODE`, or a MODE fault before `CWN` is touched (R155, R203). -/
def encodeSelected (p : Config.Params) (s : State) : Except State State :=
  match s.mode with
  | none => raise .mode 0#32 s
  | some m => encodeFrame p m s

/-- `ENC.S` (R155). -/
def execEncS (s : State) : Result := whenRunning s (conclude (encodeSelected Config.params s))

end Sys2Proof.Machine
end

