-- ==== Sys2Proof/Machine/Estimate.lean ====
section
/-! DEFINITION. The version estimator, command ESTVER, and the label of its answer (43_version_estimator.md). -/

namespace Sys2Proof.Machine

/-- `VT_HI[i]` for a row `i` from 1 to 15 (R181). -/
def vtHi (p : Config.Params) (i : Nat) : Nat :=
  if i = 1 then 17
  else if i = 2 then 32
  else if i ≤ 13 then p.vtMid.getD (i - 3) 0
  else if i = 14 then 437
  else 480

/-- `VT_LO[i]`: 1 for row 1, and one above the row before for every other (R181). -/
def vtLo (p : Config.Params) (i : Nat) : Nat :=
  if i ≤ 1 then 1 else vtHi p (i - 1) + 1

/-- The loop of `ESTVER` over rows 1 to 15 for a codeword count `c` (R182). -/
def versionRow (p : Config.Params) (c : Nat) : Nat :=
  (List.range' 1 15).foldl (fun v i => if vtLo p i ≤ c ∧ c ≤ vtHi p i then i else v) 0

/-- `ESTVER` (R182): reads `CWN` and the table only. -/
def execEstver (s : State) : Result :=
  whenRunning s (.next (writeVidx (BitVec.ofNat 4 (versionRow Config.params s.cwbuf.length)) s))

/-- A decimal numeral below 100, without leading zeros. -/
def decimal (n : Nat) : String :=
  if n < 10 then String.singleton (Char.ofNat (48 + n))
  else String.singleton (Char.ofNat (48 + n / 10)) ++ String.singleton (Char.ofNat (48 + n % 10))

/-- `VN[i]`, the version number of a row (R185). -/
def versionNumber (i : Nat) : Nat := i

/-- `VW[i]`, the side length of a row in modules (R185). -/
def versionSide (i : Nat) : Nat := 17 + 4 * i

/-- `LABEL(VIDX)`, the text the host renders (R185). The text of rows 2 to 15 rests on the spec's general knowledge
(UNVERIFIED, log 14). -/
def label (v : BitVec 4) : String :=
  if v = 0#4 then "Unknown QR Code Format"
  else
    "Version " ++ decimal (versionNumber v.toNat) ++ " (" ++ decimal (versionSide v.toNat) ++ "x" ++
      decimal (versionSide v.toNat) ++ " modules)"

end Sys2Proof.Machine
end

