-- ==== Sys2Proof/Machine/Flags.lean ====
section
/-! DEFINITION. QSEC has no condition codes; `STATUS` is its only flag register (10_state.md R34). -/

namespace Sys2Proof.Machine

/-- The four bits of `STATUS.CAUSE`: 0 is "no fault" (R27). -/
def Status.causeBits (st : Status) : BitVec 4 :=
  match st.cause with
  | none => 0#4
  | some c => c.code

/-- `STATUS` as read: HALT in bit 0, CAUSE in bits 7 to 4, all others 0 (20_memory.md R66, 30_encoding.md R97). -/
def State.statusBits (s : State) : Word :=
  0#24 ++ s.status.causeBits ++ 0#3 ++ BitVec.ofBool s.status.halt

end Sys2Proof.Machine
end

