-- ==== Sys2Proof/Machine/HostRead.lean ====
section
/-! DEFINITION. The host reads of the sixteen registers (44_control_and_host.md R194): each returns its value to the
host, halted or not, and changes nothing of the machine. A field narrower than 32 bits is extended with zeros. -/

namespace Sys2Proof.Machine

/-- `RD CMD`: write only, reads 0. -/
def execRdCmd (s : State) : Result := .next (reply 0#32 s)

/-- `RD STATUS`: HALT + 16·CAUSE. -/
def execRdStatus (s : State) : Result := .next (reply s.statusBits s)

/-- `RD FINFO`. -/
def execRdFinfo (s : State) : Result := .next (reply s.finfo s)

/-- `RD PDATA`: write only, reads 0. -/
def execRdPdata (s : State) : Result := .next (reply 0#32 s)

/-- `RD PLEN`. -/
def execRdPlen (s : State) : Result := .next (reply (s.plen.setWidth 32) s)

/-- `RD ECI`: V·2^31 + VAL. -/
def execRdEci (s : State) : Result := .next (reply s.eciBits s)

/-- `RD MODE`: the mode indicator, or 0. -/
def execRdMode (s : State) : Result := .next (reply (s.modeBits.setWidth 32) s)

/-- `RD CWN`. -/
def execRdCwn (s : State) : Result := .next (reply (s.cwn.setWidth 32) s)

/-- `RD CWIDX`. -/
def execRdCwidx (s : State) : Result := .next (reply (s.cwidx.setWidth 32) s)

/-- `RD CWDATA`: the codeword at CWIDX, or 0. -/
def execRdCwdata (s : State) : Result := .next (reply (s.cwdata.setWidth 32) s)

/-- `RD BITN`: 8·OBN. -/
def execRdBitn (s : State) : Result := .next (reply (s.bitn.setWidth 32) s)

/-- `RD OBIDX`. -/
def execRdObidx (s : State) : Result := .next (reply (s.obidx.setWidth 32) s)

/-- `RD OBDATA`: the group at OBIDX, or 0. -/
def execRdObdata (s : State) : Result := .next (reply (s.obdata.setWidth 32) s)

/-- `RD VER`: VIDX. -/
def execRdVer (s : State) : Result := .next (reply (s.vidx.setWidth 32) s)

/-- `RD CFG`: a constant (10_state.md R30). -/
def execRdCfg (s : State) : Result := .next (reply Config.cfgWord s)

/-- `RD ID`: a constant (10_state.md R30). -/
def execRdId (s : State) : Result := .next (reply Config.idWord s)

end Sys2Proof.Machine
end

