-- ==== Sys2Proof/Machine/HostWrite.lean ====
section
/-! DEFINITION. The host writes that are rows of the opcode table: PUSH, SETECI, CLRECI, SETCWIDX, SETOBIDX
(44_control_and_host.md R190 to R193). -/

namespace Sys2Proof.Machine

/-- `PUSH e` (R191): PFULL when the buffer already holds `MAXLEN` elements. -/
def execPush (e : Elem) (s : State) : Result :=
  whenRunning s
    (if Config.maxLen ≤ s.pbuf.length then .next (enterFault .pfull (e.setWidth 32) s) else .next (appendElem e s))

/-- `SETECI`: a write to `ECI` with bit 31 set (R192). -/
def execSeteci (val : Desig) (s : State) : Result := whenRunning s (.next (writeEci true val s))

/-- `CLRECI`: a write to `ECI` with bit 31 clear; the VAL field is stored all the same (R190, R192). -/
def execClreci (val : Desig) (s : State) : Result := whenRunning s (.next (writeEci false val s))

/-- `SETCWIDX`, also while halted (R190, R193). -/
def execSetcwidx (n : BufIdx) (s : State) : Result := .next (writeCwidx n s)

/-- `SETOBIDX`, also while halted (R190, R193). -/
def execSetobidx (n : BufIdx) (s : State) : Result := .next (writeObidx n s)

end Sys2Proof.Machine
end

