-- ==== Sys2Proof/Machine/Select.lean ====
section
/-! DEFINITION. The mode selector, command SELMODE (40_mode_selector.md). -/

namespace Sys2Proof.Machine

/-- The four accumulators of one classification pass (R121); they are not architectural state. -/
structure ClassAcc where
  allD : Bool
  allA : Bool
  allK : Bool
  allS : Bool
deriving DecidableEq, Repr

/-- The body of the pass for one element (R121). -/
def classStep (p : Config.Params) (a : ClassAcc) (c : Elem) : ClassAcc :=
  { allD := a.allD && isDigit c
    allA := a.allA && isAlnum c
    allK := a.allK && isKanji p c
    allS := a.allS && isScalar c }

/-- The priority chain after the pass (R121): Kanji is tested before Byte. -/
def chooseMode (a : ClassAcc) : Mode :=
  if a.allD then .numeric
  else if a.allA then .alphanumeric
  else if a.allK then .kanji
  else if a.allS then .byte
  else .eci

/-- The mode SELMODE writes for a payload: `EMPTY_MODE` for the empty one (R121, R124). -/
def selectMode (p : Config.Params) (payload : List Elem) : Mode :=
  match payload with
  | [] => p.emptyMode
  | c :: cs => chooseMode ((c :: cs).foldl (classStep p) { allD := true, allA := true, allK := true, allS := true })

/-- `SELMODE` (R121). -/
def execSelmode (s : State) : Result :=
  whenRunning s (.next (writeMode (selectMode Config.params s.pbuf) s))

end Sys2Proof.Machine
end

