-- ==== Sys2Proof/Machine/Serialize.lean ====
section
/-! DEFINITION. The bit serializer, command TOBITS (42_bit_serializer.md). -/

namespace Sys2Proof.Machine

/-- The loop of `TOBITS` from index `j` on: a codeword of 256 or more raises OVF, any other is one 8-bit group (R171). -/
def serializeLoop : Nat → List Codeword → State → Except State State
  | _, [], s => .ok s
  | j, w :: ws, s =>
    if 256 ≤ w.toNat then raise .ovf (BitVec.ofNat 32 j) s
    else serializeLoop (j + 1) ws (outByte (w.setWidth 8) s)

/-- The body of `TOBITS` (R171): `OBN <- 0` comes first. -/
def serialize (s : State) : Except State State := serializeLoop 0 s.cwbuf (clearGroups s)

/-- `TOBITS` (R171). -/
def execTobits (s : State) : Result := whenRunning s (conclude (serialize s))

end Sys2Proof.Machine
end

