-- ==== Sys2Proof/Machine/Dispatch.lean ====
section
/-! DEFINITION. One arm per instruction: a direct call of its meaning. -/

namespace Sys2Proof.Machine

def exec (i : Instr) (s : State) : Host.Outcome State Fault Refusal :=
  match i with
  | .selmode => Sys2Proof.Machine.execSelmode s
  | .encS => Sys2Proof.Machine.execEncS s
  | .encN => Sys2Proof.Machine.execEncN s
  | .encA => Sys2Proof.Machine.execEncA s
  | .encB => Sys2Proof.Machine.execEncB s
  | .encE => Sys2Proof.Machine.execEncE s
  | .encK => Sys2Proof.Machine.execEncK s
  | .tobits => Sys2Proof.Machine.execTobits s
  | .estver => Sys2Proof.Machine.execEstver s
  | .pclr => Sys2Proof.Machine.execPclr s
  | .srst => Sys2Proof.Machine.execSrst s
  | .push e => Sys2Proof.Machine.execPush e s
  | .seteci val => Sys2Proof.Machine.execSeteci val s
  | .clreci val => Sys2Proof.Machine.execClreci val s
  | .setcwidx n => Sys2Proof.Machine.execSetcwidx n s
  | .setobidx n => Sys2Proof.Machine.execSetobidx n s
  | .rdCmd => Sys2Proof.Machine.execRdCmd s
  | .rdStatus => Sys2Proof.Machine.execRdStatus s
  | .rdFinfo => Sys2Proof.Machine.execRdFinfo s
  | .rdPdata => Sys2Proof.Machine.execRdPdata s
  | .rdPlen => Sys2Proof.Machine.execRdPlen s
  | .rdEci => Sys2Proof.Machine.execRdEci s
  | .rdMode => Sys2Proof.Machine.execRdMode s
  | .rdCwn => Sys2Proof.Machine.execRdCwn s
  | .rdCwidx => Sys2Proof.Machine.execRdCwidx s
  | .rdCwdata => Sys2Proof.Machine.execRdCwdata s
  | .rdBitn => Sys2Proof.Machine.execRdBitn s
  | .rdObidx => Sys2Proof.Machine.execRdObidx s
  | .rdObdata => Sys2Proof.Machine.execRdObdata s
  | .rdVer => Sys2Proof.Machine.execRdVer s
  | .rdCfg => Sys2Proof.Machine.execRdCfg s
  | .rdId => Sys2Proof.Machine.execRdId s

end Sys2Proof.Machine
end

