-- ==== Sys2Proof/Machine/Step.lean ====
section
/-! DEFINITION. One step serves the oldest pending host event (44_control_and_host.md R190, R194, 20_memory.md R70): an
instruction of the table runs, any other transaction does what the spec gives it, a reset pulse resets. With no event
pending the block does nothing (70_reset_and_hazards.md R232; DEDUCED, log 2). -/

namespace Sys2Proof.Machine

/-- Serve one transaction. -/
def serveTxn (t : HostTxn) (s : State) : Host.Outcome State Fault Refusal :=
  match decode t with
  | .ok i => exec i s
  | .error why => execRejected why s

/-- One step of the machine. -/
def step (s : State) : Host.Outcome State Fault Refusal :=
  match takeEvent s with
  | none => .next s
  | some (.txn t, s') => serveTxn t s'
  | some (.hwReset, s') => execHwReset s'

/-- `s` with the table's word standing first in the host's stream, at the register the table's row targets (log 7). -/
def State.withFetchWord (s : State) (nbits w : Nat) : State := placeEvent (.txn (tableTxn nbits w)) s

end Sys2Proof.Machine
end

