-- ==== Sys2Proof/WellFormed.lean ====
section
/-! DEFINITION. Which terms of the syntax are well formed. `Instr` needs no check: each operand is a bit vector of its
field's width. The assembler's statements (30_encoding.md R104, R105) carry plain numbers, bounded here. The checks on
the open parameters (00_scope.md R8) stand in Config.lean. -/

namespace Sys2Proof

/-- The instructions whose transaction is a command word written to `CMD` (30_encoding.md R100). -/
def Instr.isCommand : Instr → Bool
  | .selmode | .encS | .encN | .encA | .encB | .encE | .encK | .tobits | .estver | .pclr | .srst => true
  | .push _ | .seteci _ | .clreci _ | .setcwidx _ | .setobidx _ => false
  | .rdCmd | .rdStatus | .rdFinfo | .rdPdata | .rdPlen | .rdEci | .rdMode | .rdCwn => false
  | .rdCwidx | .rdCwdata | .rdBitn | .rdObidx | .rdObdata | .rdVer | .rdCfg | .rdId => false

/-- The assembler's bounds (30_encoding.md R104): a command statement names one of the eleven commands, a designator is
below 2^24, and any other number fits the 32-bit word it is written in. -/
def Stmt.wf : Stmt → Bool
  | .command i => i.isCommand
  | .push v => decide (v < 2 ^ 32)
  | .seteci n => decide (n < 2 ^ 24)
  | .clreci => true
  | .setcwidx n => decide (n < 2 ^ 32)
  | .setobidx n => decide (n < 2 ^ 32)
  | .rd _ => true
  | .pushs _ => true
  | .load _ => true
  | .pipe => true
  | .encode _ => true
  | .rdcw n => decide (n < 2 ^ 32)
  | .rdob n => decide (n < 2 ^ 32)

end Sys2Proof
end

