-- ==== Sys2Proof/Machine/Assembler.lean ====
section
/-! DEFINITION. The assembler: what transactions a statement or pseudo-instruction stands for (30_encoding.md R104,
R105), and the mode names a tool prints (R106). Text is a list of Lean characters (DESIGN CHOICE, log 12). -/

namespace Sys2Proof.Machine

/-- `PUSH v`: `HostWrite(0x3, v)` (R104). -/
def pushTxn (v : Nat) : HostTxn := .write 0x3#4 (BitVec.ofNat 32 v)

/-- `RD name`: `HostRead(idx of name)` (R104). -/
def rdTxn (r : Reg) : HostTxn := .read r.idx

/-- `SETCWIDX n`: `HostWrite(0x8, n)` (R104). -/
def setCwidxTxn (n : Nat) : HostTxn := .write 0x8#4 (BitVec.ofNat 32 n)

/-- `SETOBIDX n`: `HostWrite(0xB, n)` (R104). -/
def setObidxTxn (n : Nat) : HostTxn := .write 0xB#4 (BitVec.ofNat 32 n)

/-- The command that encodes with a given mode (R105, `ENCODE m`). -/
def encodeCommand : Mode → Instr
  | .numeric => .encN
  | .alphanumeric => .encA
  | .byte => .encB
  | .kanji => .encK
  | .eci => .encE

/-- The transactions of one statement, in the order they are sent (R104, R105). -/
def expand : Stmt → List HostTxn
  | .command i => [encode i]
  | .push v => [pushTxn v]
  | .seteci n => [.write 0x5#4 (BitVec.ofNat 32 (0x80000000 + n))]
  | .clreci => [.write 0x5#4 0#32]
  | .setcwidx n => [setCwidxTxn n]
  | .setobidx n => [setObidxTxn n]
  | .rd r => [rdTxn r]
  | .pushs text => text.map (fun c => pushTxn c.toNat)
  | .load text => encode .pclr :: text.map (fun c => pushTxn c.toNat)
  | .pipe => [encode .selmode, encode .encS, encode .tobits, encode .estver]
  | .encode m => [encode (encodeCommand m)]
  | .rdcw n => [setCwidxTxn n, rdTxn .cwdata]
  | .rdob n => [setObidxTxn n, rdTxn .obdata]

/-- The name a tool prints for `MODE` (R106). -/
def modeName : Option Mode → String
  | none => "none"
  | some .numeric => "Numeric"
  | some .alphanumeric => "Alphanumeric"
  | some .byte => "Byte"
  | some .kanji => "Kanji"
  | some .eci => "ECI"

end Sys2Proof.Machine
end

