-- ==== Sys2Proof/Safety.lean ====
section
/-! DEFINITION. The terms that claims use: what the source's four functions return, in closed form and with the spec's
own numbers (00_scope.md R5); a running machine (60_exceptions.md R207) and what raises a fault in it (R201); the invariant
of every reachable state (10_state.md R39); and the registers as plain numbers (44_control_and_host.md R194). -/

namespace Sys2Proof.Source

/-! ### Character classes (00_scope.md R11) -/

abbrev Digit (c : Elem) : Prop := 0x30 ≤ c.toNat ∧ c.toNat ≤ 0x39

abbrev Upper (c : Elem) : Prop := 0x41 ≤ c.toNat ∧ c.toNat ≤ 0x5A

abbrev Lower (c : Elem) : Prop := 0x61 ≤ c.toNat ∧ c.toNat ≤ 0x7A

abbrev Alnum (c : Elem) : Prop := Digit c ∨ Upper c ∨ Lower c

abbrev Scalar (c : Elem) : Prop := c.toNat ≤ 0xD7FF ∨ (0xE000 ≤ c.toNat ∧ c.toNat ≤ 0x10FFFF)

abbrev Kanji (p : Config.Params) (c : Elem) : Prop := ∃ r ∈ p.kanjiSet, r.lo ≤ c.toNat ∧ c.toNat ≤ r.hi

/-! ### select_mode (40_mode_selector.md R120) -/

/-- `select_mode(P)`: five outcomes in fixed priority, and `EMPTY_MODE` for the empty payload. -/
def selectMode (p : Config.Params) (payload : List Elem) : Mode :=
  if payload = [] then p.emptyMode
  else if payload.all (fun c => decide (Digit c)) then .numeric
  else if payload.all (fun c => decide (Alnum c)) then .alphanumeric
  else if payload.all (fun c => decide (Kanji p c)) then .kanji
  else if payload.all (fun c => decide (Scalar c)) then .byte
  else .eci

/-! ### encode (41_segment_encoder.md R140 to R154) -/

/-- A digit's value, 0 to 9; nothing for any other element (R144). -/
def digitValue (c : Elem) : Option Nat := if Digit c then some (c.toNat - 0x30) else none

/-- `'0'..'9'` 0 to 9, `'A'..'Z'` 10 to 35, `'a'..'z'` 36 to 61; nothing for any other element (R145). -/
def alnumValue (c : Elem) : Option Nat :=
  if Digit c then some (c.toNat - 0x30)
  else if Upper c then some (c.toNat - 0x41 + 10)
  else if Lower c then some (c.toNat - 0x61 + 36)
  else none

/-- `D`: the two designator codewords when one is supplied, else nothing (R143, R150). -/
def designatorPart (e : Machine.Eci) : List Nat :=
  if e.v then [e.val.toNat / 256, e.val.toNat % 256] else []

/-- The character-count indicator (R142). -/
def countPart (m : Mode) (n : Nat) : List Nat :=
  match m with
  | .numeric => [n]
  | .alphanumeric => [(n + 1) / 2]
  | .byte => [n]
  | .kanji => [n / 256, n % 256]
  | .eci => []

/-- Whether a mode has a payload codeword rule for an element: Byte up to 0xFF (R147), Kanji where `KANJI_LEAD` is
defined (R148), any element in the other modes. -/
abbrev Mappable (p : Config.Params) (m : Mode) (c : Elem) : Prop :=
  (m = .byte → c.toNat ≤ 0xFF) ∧ (m = .kanji → p.kanjiLead c ≠ none)

/-- The lead byte of an element on which `KANJI_LEAD` is defined (R148). -/
def leadByte (p : Config.Params) (c : Elem) : Nat := ((p.kanjiLead c).getD 0#8).toNat

/-- The payload codewords of a payload whose every element is mappable (R144, R145, R147 to R149). -/
def payloadPart (p : Config.Params) (m : Mode) (payload : List Elem) : List Nat :=
  match m with
  | .numeric => payload.filterMap digitValue
  | .alphanumeric => payload.filterMap alnumValue
  | .byte => payload.map BitVec.toNat
  | .kanji => payload.flatMap (fun c => [0, leadByte p c])
  | .eci => []

/-- `encode(m, P, des)` for a payload whose every element is mappable: indicator, count, designator, payload
codewords (R95, R140). -/
def encode (p : Config.Params) (m : Mode) (payload : List Elem) (e : Machine.Eci) : List Nat :=
  m.indicator.toNat :: (countPart m payload.length ++ designatorPart e ++ payloadPart p m payload)

/-! ### to_bits (42_bit_serializer.md R170) -/

/-- `to_bits(CW)` for codewords below 256: eight bits each, most significant first. -/
def toBits (cw : List Nat) : List Bool :=
  cw.flatMap (fun w =>
    [w.testBit 7, w.testBit 6, w.testBit 5, w.testBit 4, w.testBit 3, w.testBit 2, w.testBit 1, w.testBit 0])

/-! ### estimate_version (43_version_estimator.md R181) -/

/-- The upper bounds of the fifteen rows, in order (R181). -/
def upperBounds (p : Config.Params) : List Nat := 17 :: 32 :: (p.vtMid ++ [437, 480])

/-- The row that holds a codeword count: one more than the number of rows that end below it; 0 for a count of 0 or
above 480 (R180, R181). -/
def versionIndex (p : Config.Params) (c : Nat) : Nat :=
  if c = 0 ∨ 480 < c then 0 else (upperBounds p).countP (fun b => decide (b < c)) + 1

end Sys2Proof.Source

namespace Sys2Proof.Machine

/-! ### Runs -/

/-- Not halted: no fault since the last reset (60_exceptions.md R207). -/
abbrev State.Running (s : State) : Prop := s.status.halt = false

/-- Halted after a fault (60_exceptions.md R209). -/
abbrev State.Halted (s : State) : Prop := s.status.halt = true

/-- Which transaction raises which cause in a running state, and the information it records: 60_exceptions.md R201, row by
row, with the scan order of R203 (the least index). A push raises PFULL at 65535 elements; that it does so above that, too,
is log 6. -/
def RaisedBy (s : State) (x : HostTxn) (c : Cause) (info : Word) : Prop :=
  match c with
  | .cmd => x = .write 0x0#4 info ∧ decode x = .error (.illegalCommand info)
  | .mode => decode x = .ok .encS ∧ s.mode = none ∧ info = 0#32
  | .pfull => ∃ e, decode x = .ok (.push e) ∧ 65535 ≤ s.pbuf.length ∧ info.toNat = e.toNat
  | .map => ∃ m i e, (decode x = .ok (encodeCommand m) ∨ (decode x = .ok .encS ∧ s.mode = some m)) ∧
      s.pbuf[i]? = some e ∧ ¬ Source.Mappable Config.params m e ∧
      (∀ j d, j < i → s.pbuf[j]? = some d → Source.Mappable Config.params m d) ∧ info = BitVec.ofNat 32 i
  | .ovf => decode x = .ok .tobits ∧ ∃ j w, s.cwbuf[j]? = some w ∧ 256 ≤ w.toNat ∧
      (∀ k v, k < j → s.cwbuf[k]? = some v → v.toNat < 256) ∧ info = BitVec.ofNat 32 j

/-! ### The invariant (10_state.md R39, R27, R28) -/

/-- What the encoder leaves in `CWBUF` (R39 (c), (d), (e), with the segment format of 30_encoding.md R95): nothing, or a
legal mode indicator first; for ECI no count element; for Kanji the two bytes of a count; for the other modes a count. -/
abbrev SegmentShape (cw : List Codeword) : Prop :=
  cw = [] ∨
    (cw.head? ∈ [some 1#16, some 2#16, some 4#16, some 7#16, some 8#16] ∧
      (cw.head? = some 7#16 → cw.length = 1 ∨ cw.length = 3) ∧
      (cw.head? = some 8#16 → 3 ≤ cw.length ∧ (cw.getD 1 0#16).toNat < 256 ∧ (cw.getD 2 0#16).toNat < 256) ∧
      (cw.head? ∈ [some 1#16, some 2#16, some 4#16] → 2 ≤ cw.length))

/-- The invariant of every reachable state. -/
abbrev State.Inv (s : State) : Prop :=
  Memory.wf s ∧
    (s.status.halt = true ↔ s.status.cause ≠ none) ∧
    (s.status.halt = false → s.finfo = 0#32) ∧
    SegmentShape s.cwbuf

/-! ### Registers as numbers (44_control_and_host.md R194) -/

/-- The number a cause code stands for (60_exceptions.md R201). -/
def causeNumber : Option Cause → Nat
  | none => 0
  | some .cmd => 1
  | some .mode => 2
  | some .pfull => 3
  | some .map => 4
  | some .ovf => 5

/-- The number of a mode in `MODE` (10_state.md R23). -/
def modeNumber : Option Mode → Nat
  | none => 0
  | some .numeric => 1
  | some .alphanumeric => 2
  | some .byte => 4
  | some .eci => 7
  | some .kanji => 8

/-- The value `HostRead` returns for each register, row by row of R194. -/
def readNumber (r : Reg) (s : State) : Nat :=
  match r with
  | .cmd => 0
  | .status => (if s.status.halt then 1 else 0) + 16 * causeNumber s.status.cause
  | .finfo => s.finfo.toNat
  | .pdata => 0
  | .plen => s.pbuf.length
  | .eci => (if s.eci.v then 1 else 0) * 2 ^ 31 + s.eci.val.toNat
  | .mode => modeNumber s.mode
  | .cwn => s.cwbuf.length
  | .cwidx => s.cwidx.toNat
  | .cwdata => match s.cwbuf[s.cwidx.toNat]? with
    | some w => w.toNat
    | none => 0
  | .bitn => 8 * s.obuf.length
  | .obidx => s.obidx.toNat
  | .obdata => match s.obuf[s.obidx.toNat]? with
    | some b => b.toNat
    | none => 0
  | .ver => s.vidx.toNat
  | .cfg => 0x15101810
  | .id => 0x51525331

end Sys2Proof.Machine
end

