-- ==== Sys2Proof/Certificates/Slice0/Obligations.lean ====
section
/-! DEFINITION. The statements about the model, each from the spec's numbered rules. `Config.params` is opaque, so each
holds for every admissible choice of the open parameters (00_scope.md R8). -/

section

open Sys2Proof Sys2Proof.Machine

/-! ## Reset -/

/-- 70_reset_and_hazards.md R230: after hardware reset, every piece of state has the value listed there. That a reset is
one event of the host's stream, and that the host's side of the port outlasts it, is the model's choice (logs 1, 3, 10). -/
def Obligations.HardwareResetValues : Prop :=
  ∀ s rest, s.hostIn = .hwReset :: rest →
    ∃ t, step s = .next t ∧
      t.plen = 0#16 ∧ t.pbuf = [] ∧ t.eci = { v := false, val := 0#24 } ∧ t.mode = none ∧ t.modeBits = 0#4 ∧
      t.cwn = 0#18 ∧ t.cwbuf = [] ∧ t.obn = 0#18 ∧ t.bitn = 0#21 ∧ t.obuf = [] ∧ t.vidx = 0#4 ∧
      t.status = { halt := false, cause := none } ∧ t.statusBits = 0#32 ∧ t.finfo = 0#32 ∧
      t.cwidx = 0#18 ∧ t.obidx = 0#18 ∧ t.hostIn = rest ∧ t.hrdata = s.hrdata

/-- R196: `SRST`, halted or not, sets every piece of state to its reset value; in the reset state it changes nothing; it
is the only command executed while halted and, with hardware reset, the only way to clear `HALT`. -/
def Obligations.SrstLeavesResetState : Prop :=
  decode (.write 0#4 0x000000F0#32) = .ok .srst ∧
    (∀ s, ∃ t, exec .srst s = .next t ∧
      t.plen = 0#16 ∧ t.pbuf = [] ∧ t.eci = { v := false, val := 0#24 } ∧ t.mode = none ∧
      t.cwn = 0#18 ∧ t.cwbuf = [] ∧ t.obn = 0#18 ∧ t.obuf = [] ∧ t.vidx = 0#4 ∧
      t.status = { halt := false, cause := none } ∧ t.finfo = 0#32 ∧ t.cwidx = 0#18 ∧ t.obidx = 0#18) ∧
    exec .srst State.reset = .next State.reset ∧
    (∀ s i, s.Halted → i.isCommand = true → i ≠ .srst → exec i s = .next s) ∧
    ∀ s t, s.Halted → step s = .next t → t.Running →
      ∃ rest, s.hostIn = .hwReset :: rest ∨ s.hostIn = .txn (.write 0#4 0x000000F0#32) :: rest

/-- R38: the reset state, register by register as a host reads it, and its empty bit string. -/
def Obligations.ResetStateReadsAsStated : Prop :=
  (∀ r : Reg, ∃ t, serveTxn (.read r.idx) State.reset = .next t ∧
      t.hrdata = if r = .cfg then 0x15101810#32 else if r = .id then 0x51525331#32 else 0#32) ∧
    State.reset.bits = []

/-! ## Decoding and the step -/

/-- R190, R194, R70: a step serves the oldest pending transaction; what decodes runs as that instruction, on the state
without that event. The list of events is the model's choice (log 1). -/
def Obligations.StepRunsDecodedTransaction : Prop :=
  ∀ s t rest i, s.hostIn = .txn t :: rest → decode t = .ok i → step s = exec i { s with hostIn := rest }

/-- R190, R232: the other steps. With no event pending nothing happens (the model's choice of a step, log 2); an illegal
word written to `CMD` raises CMD or, while halted, does nothing; a write to a read-only register does nothing. -/
def Obligations.StepOtherwise : Prop :=
  (∀ s, s.hostIn = [] → step s = .next s) ∧
    (∀ s w rest, s.hostIn = .txn (.write 0#4 w) :: rest → decode (.write 0#4 w) = .error (.illegalCommand w) →
      (s.Running → step s =
        .next { s with hostIn := rest, status := { halt := true, cause := some .cmd }, finfo := w }) ∧
      (s.Halted → step s = .next { s with hostIn := rest })) ∧
    (∀ s idx v rest, s.hostIn = .txn (.write idx v) :: rest →
      (idx = 1#4 ∨ idx = 2#4 ∨ idx = 4#4 ∨ idx = 6#4 ∨ idx = 7#4 ∨ idx = 9#4 ∨ idx = 10#4 ∨ idx = 12#4 ∨ idx = 13#4 ∨
        idx = 14#4 ∨ idx = 15#4) →
      step s = .next { s with hostIn := rest })

/-- Words written out from R90 to R93 and the opcode table decode to the instructions they stand for. In the last two
clauses the register that a bare word of the opcode table is written to is the model's choice (log 7): the table's word
names none. -/
def Obligations.SampleWordsDecode : Prop :=
  decode (.write 0x0#4 0x00000010#32) = .ok .selmode ∧
    decode (.write 0x0#4 0x00000028#32) = .ok .encK ∧
    decode (.write 0x0#4 0x00000030#32) = .ok .tobits ∧
    decode (.write 0x0#4 0x00000040#32) = .ok .estver ∧
    decode (.write 0x0#4 0x000000F0#32) = .ok .srst ∧
    decode (.write 0x3#4 0xFFE00031#32) = .ok (.push 0x31#21) ∧
    decode (.write 0x5#4 0xFF000003#32) = .ok (.seteci 3#24) ∧
    decode (.write 0x8#4 0xFFFC0002#32) = .ok (.setcwidx 2#18) ∧
    decode (.read 0x9#4) = .ok .rdCwdata ∧
    decodeTableWord 32 0x00000024 = some .encB ∧
    decodeTableWord 32 0x80000000 = some (.seteci 0#24)

/-- Decoding an instruction's transaction gives it back, for every instruction and every operand value. -/
def Obligations.DecodeOfEncode : Prop :=
  ∀ i, decode (encode i) = .ok i

/-- R66, R190: encoding what was decoded gives the transaction back with its ignored bits cleared. -/
def Obligations.EncodeOfDecode : Prop :=
  ∀ t i, decode t = .ok i → encode i = t.clearIgnored

/-- R101: the words that are commands, by the fields `Z`, `OP`, `M`; every other word raises CMD while not halted and
changes nothing else. -/
def Obligations.IllegalWordsByField : Prop :=
  ∀ (w : Word) (s : State), s.Running →
    ((w.extractLsb' 8 24 ≠ 0#24 ∨
        (w.extractLsb' 4 4 ∉ [1#4, 2#4, 3#4, 4#4, 5#4, 15#4]) ∨
        (w.extractLsb' 4 4 ∈ [1#4, 3#4, 4#4, 5#4, 15#4] ∧ w.extractLsb' 0 4 ≠ 0#4) ∨
        (w.extractLsb' 4 4 = 2#4 ∧ w.extractLsb' 0 4 ∉ [0#4, 1#4, 2#4, 4#4, 7#4, 8#4])) ↔
      decode (.write 0#4 w) = .error (.illegalCommand w)) ∧
    (decode (.write 0#4 w) = .error (.illegalCommand w) →
      serveTxn (.write 0#4 w) s = .next { s with status := { halt := true, cause := some .cmd }, finfo := w })

/-- 60_exceptions.md R206, checks (1) to (4) of one write to `CMD`, in order; check (5), the command's own data fault, is
stated with each command. What `SRST` leaves of the host's side of the port is the model's choice (logs 1, 3, 10). -/
def Obligations.CommandWritePriority : Prop :=
  ∀ (w : Word) (s : State),
    (w = 0x000000F0#32 → serveTxn (.write 0#4 w) s = .next { State.reset with hostIn := s.hostIn, hrdata := s.hrdata }) ∧
      (w ≠ 0x000000F0#32 → s.Halted → serveTxn (.write 0#4 w) s = .next s) ∧
      (s.Running → w ∉ [0x10#32, 0x20#32, 0x21#32, 0x22#32, 0x24#32, 0x27#32, 0x28#32, 0x30#32, 0x40#32, 0x50#32, 0xF0#32] →
        serveTxn (.write 0#4 w) s = .next { s with status := { halt := true, cause := some .cmd }, finfo := w }) ∧
      (s.Running → w = 0x00000020#32 → s.mode = none →
        serveTxn (.write 0#4 w) s =
          .next { s with status := { halt := true, cause := some .mode }, finfo := 0#32 })

/-- R104: the assembler's statements of one transaction decode to the instructions they name, with their operands. That
the number of `PUSH`, `SETCWIDX` and `SETOBIDX` is below 2^32 is the model's choice (log 12); R104 bounds the number of
`SETECI` only. -/
def Obligations.AssemblerStatementsDecode : Prop :=
  (∀ i, i.isCommand = true → (expand (.command i)).map decode = [.ok i]) ∧
    (∀ v, Stmt.wf (.push v) = true → (expand (.push v)).map decode = [.ok (.push (BitVec.ofNat 21 v))]) ∧
    (∀ n, Stmt.wf (.seteci n) = true → (expand (.seteci n)).map decode = [.ok (.seteci (BitVec.ofNat 24 n))]) ∧
    (expand .clreci).map decode = [.ok (.clreci 0#24)] ∧
    (∀ n, Stmt.wf (.setcwidx n) = true → (expand (.setcwidx n)).map decode = [.ok (.setcwidx (BitVec.ofNat 18 n))]) ∧
    (∀ n, Stmt.wf (.setobidx n) = true → (expand (.setobidx n)).map decode = [.ok (.setobidx (BitVec.ofNat 18 n))]) ∧
    (∀ q ∈ [(Reg.cmd, Instr.rdCmd), (.status, .rdStatus), (.finfo, .rdFinfo), (.pdata, .rdPdata), (.plen, .rdPlen),
        (.eci, .rdEci), (.mode, .rdMode), (.cwn, .rdCwn), (.cwidx, .rdCwidx), (.cwdata, .rdCwdata), (.bitn, .rdBitn),
        (.obidx, .rdObidx), (.obdata, .rdObdata), (.ver, .rdVer), (.cfg, .rdCfg), (.id, .rdId)],
      (expand (.rd q.1)).map decode = [.ok q.2])

/-! ## The mode selector -/

/-- R120, R121: `SELMODE` writes the selected mode into `MODE` and changes nothing else; it is ignored while halted. -/
def Obligations.SelmodeWritesSelectedMode : Prop :=
  decode (.write 0#4 0x00000010#32) = .ok .selmode ∧
    ∀ s, (s.Running →
        exec .selmode s = .next { s with mode := some (Source.selectMode Config.params s.pbuf) }) ∧
      (s.Halted → exec .selmode s = .next s)

/-- Which payloads give which `MODE`, for every admissible parameter choice: the characterisation that
40_mode_selector.md section 4 derives from R120 and R8. -/
def Obligations.SelmodeCharacterised : Prop :=
  ∀ s, s.Running → s.pbuf ≠ [] → ∃ t, exec .selmode s = .next t ∧
    (t.modeBits = 1#4 ↔ ∀ c ∈ s.pbuf, Source.Digit c) ∧
    (t.modeBits = 2#4 ↔ (∀ c ∈ s.pbuf, Source.Alnum c) ∧ ∃ c ∈ s.pbuf, Source.Upper c ∨ Source.Lower c) ∧
    (t.modeBits = 8#4 ↔ ∀ c ∈ s.pbuf, Source.Kanji Config.params c) ∧
    (t.modeBits = 8#4 → ∀ c ∈ s.pbuf, 0x80 ≤ c.toNat) ∧
    (t.modeBits = 4#4 ↔ (∀ c ∈ s.pbuf, Source.Scalar c) ∧ (∃ c ∈ s.pbuf, ¬ Source.Alnum c) ∧
      ∃ c ∈ s.pbuf, ¬ Source.Kanji Config.params c) ∧
    (t.modeBits = 7#4 ↔ ∃ c ∈ s.pbuf, ¬ Source.Scalar c) ∧
    t.modeBits ≠ 0#4

/-- The result depends on the set of element values only, not on their order or multiplicity (a consequence that
40_mode_selector.md section 4 derives). -/
def Obligations.SelmodeDependsOnElementSet : Prop :=
  ∀ s u s' u', s.Running → u.Running → s.pbuf ≠ [] → u.pbuf ≠ [] → (∀ c, c ∈ s.pbuf ↔ c ∈ u.pbuf) →
    exec .selmode s = .next s' → exec .selmode u = .next u' → s'.mode = u'.mode

/-! ## The segment encoder -/

/-- R150: `ENC.N`. -/
def Obligations.EncNumericResult : Prop :=
  decode (.write 0#4 0x00000021#32) = .ok .encN ∧
    ∀ s, s.Running → Memory.wf s → ∃ t, exec .encN s = .next t ∧
      t.cwbuf.map BitVec.toNat =
        [1, s.pbuf.length] ++ Source.designatorPart s.eci ++ s.pbuf.filterMap Source.digitValue ∧
      t = { s with cwbuf := t.cwbuf }

/-- R151: `ENC.A`. -/
def Obligations.EncAlphanumericResult : Prop :=
  decode (.write 0#4 0x00000022#32) = .ok .encA ∧
    ∀ s, s.Running → Memory.wf s → ∃ t, exec .encA s = .next t ∧
      t.cwbuf.map BitVec.toNat =
        [2, (s.pbuf.length + 1) / 2] ++ Source.designatorPart s.eci ++ s.pbuf.filterMap Source.alnumValue ∧
      t = { s with cwbuf := t.cwbuf }

/-- R152: `ENC.B`, when no element exceeds 0xFF, and its MAP fault at the least index of one that does. -/
def Obligations.EncByteResult : Prop :=
  decode (.write 0#4 0x00000024#32) = .ok .encB ∧
    (∀ s, s.Running → Memory.wf s → (∀ c ∈ s.pbuf, c.toNat ≤ 0xFF) → ∃ t, exec .encB s = .next t ∧
      t.cwbuf.map BitVec.toNat =
        [4, s.pbuf.length] ++ Source.designatorPart s.eci ++ s.pbuf.map BitVec.toNat ∧
      t = { s with cwbuf := t.cwbuf }) ∧
    (∀ s i c, s.Running → s.pbuf[i]? = some c → 0xFF < c.toNat →
      (∀ j d, j < i → s.pbuf[j]? = some d → d.toNat ≤ 0xFF) →
      exec .encB s =
        .next { s with status := { halt := true, cause := some .map }, finfo := BitVec.ofNat 32 i, cwbuf := [] })

/-- R153: `ENC.K`, when `KANJI_LEAD` is defined on every element (codewords 1 and 2 then give back the payload length),
and its MAP fault at the least index of an element on which it is undefined. -/
def Obligations.EncKanjiResult : Prop :=
  decode (.write 0#4 0x00000028#32) = .ok .encK ∧
    (∀ s, s.Running → Memory.wf s → (∀ c ∈ s.pbuf, Config.params.kanjiLead c ≠ none) → ∃ t, exec .encK s = .next t ∧
      t.cwbuf.map BitVec.toNat =
        [8, s.pbuf.length / 256, s.pbuf.length % 256] ++ Source.designatorPart s.eci ++
          s.pbuf.flatMap (fun c => [0, Source.leadByte Config.params c]) ∧
      (t.cwbuf.getD 1 0#16).toNat * 256 + (t.cwbuf.getD 2 0#16).toNat = s.pbuf.length ∧
      t = { s with cwbuf := t.cwbuf }) ∧
    (∀ s : State, s.Running →
      match s.pbuf.findIdx? (fun c => (Config.params.kanjiLead c).isNone) with
      | none => ∃ t, exec .encK s = .next t ∧ t.Running
      | some i => exec .encK s =
          .next { s with status := { halt := true, cause := some .map }, finfo := BitVec.ofNat 32 i, cwbuf := [] })

/-- R154: `ENC.E`, for any payload. -/
def Obligations.EncEciResult : Prop :=
  decode (.write 0#4 0x00000027#32) = .ok .encE ∧
    ∀ s, s.Running → ∃ t, exec .encE s = .next t ∧
      t.cwbuf.map BitVec.toNat = [7] ++ Source.designatorPart s.eci ∧
      t = { s with cwbuf := t.cwbuf }

/-- R155: `ENC.S` behaves exactly as the command of the mode held in `MODE`, and faults MODE when there is none, with
`CWBUF` and `CWN` unchanged. It never changes `MODE`. -/
def Obligations.EncSelectedFollowsMode : Prop :=
  decode (.write 0#4 0x00000020#32) = .ok .encS ∧
    ∀ s, (∀ m, s.mode = some m → exec .encS s = exec (encodeCommand m) s) ∧
      (s.Running → s.mode = none →
        exec .encS s = .next { s with status := { halt := true, cause := some .mode }, finfo := 0#32 }) ∧
      ∀ t, exec .encS s = .next t → t.mode = s.mode

/-- R155, R95: `ENC.S` completes with the selected mode's sequence when every element is mappable in that mode. -/
def Obligations.EncSelectedResult : Prop :=
  ∀ s m, s.Running → Memory.wf s → s.mode = some m → (∀ c ∈ s.pbuf, Source.Mappable Config.params m c) →
    ∃ t, exec .encS s = .next t ∧
      t.cwbuf.map BitVec.toNat = Source.encode Config.params m s.pbuf s.eci ∧
      t = { s with cwbuf := t.cwbuf }

/-- The length of the sequence of an encode that does not fault, as 41_segment_encoder.md section 4 derives it from R140
to R149. -/
def Obligations.EncodeLength : Prop :=
  ∀ s m t, s.Running → Memory.wf s → exec (encodeCommand m) s = .next t → t.Running →
    t.cwbuf.length =
      (match m with
        | .numeric => 2 + (s.pbuf.filter (fun c => decide (Source.Digit c))).length
        | .alphanumeric => 2 + (s.pbuf.filter (fun c => decide (Source.Alnum c))).length
        | .byte => 2 + s.pbuf.length
        | .kanji => 3 + 2 * s.pbuf.length
        | .eci => 1) + (if s.eci.v then 2 else 0) ∧
    1 ≤ t.cwbuf.length ∧ t.cwbuf.length ≤ Config.cwDepth

/-- After an encode that does not fault, exactly which inputs put a codeword of 256 or more into the sequence, as
41_segment_encoder.md section 4 derives it from R141 to R148 and R7. -/
def Obligations.EncodeOverflowingCodewords : Prop :=
  ∀ s m t, s.Running → Memory.wf s → exec (encodeCommand m) s = .next t → t.Running →
    ((∃ w ∈ t.cwbuf, 256 ≤ w.toNat) ↔
      ((m = .numeric ∨ m = .byte) ∧ 256 ≤ s.pbuf.length) ∨ (m = .alphanumeric ∧ 511 ≤ s.pbuf.length) ∨
        (s.eci.v = true ∧ 65536 ≤ s.eci.val.toNat))

/-- R159, where an encode runs (`ENC.S` with a mode selected): two encodes of equal payload and designator (and `MODE` for
`ENC.S`) leave equal sequences. -/
def Obligations.EncodeIsDeterminedByItsOperands : Prop :=
  ∀ s u s' u' i, i ∈ [Instr.encN, .encA, .encB, .encK, .encE, .encS] → s.Running → u.Running →
    s.pbuf = u.pbuf → s.eci = u.eci → (i = .encS → s.mode = u.mode ∧ s.mode ≠ none) →
    exec i s = .next s' → exec i u = .next u' →
    s'.cwbuf = u'.cwbuf ∧ s'.status.halt = u'.status.halt

/-- R205, R203: a MAP fault of any encoder leaves the state before it but for `STATUS`, `FINFO` and `CWN = 0`. -/
def Obligations.EncodeFaultIsPrecise : Prop :=
  ∀ s i t, i ∈ [Instr.encN, .encA, .encB, .encK, .encE, .encS] → s.Running → exec i s = .next t → t.Halted →
    (t.status.cause = some .map ∧ t = { s with status := t.status, finfo := t.finfo, cwbuf := [] }) ∨
      (t.status.cause = some .mode ∧ i = .encS ∧ t = { s with status := t.status, finfo := 0#32 })

/-- R140, R8: the encoder's frame for ANY tables, in every mode: the closed-form sequence when every element is mappable,
else a MAP fault at the least index of one that is not. -/
def Obligations.EncodeForEveryTable : Prop :=
  ∀ (p : Config.Params) m s, Memory.wf s →
    ((∀ c ∈ s.pbuf, Source.Mappable p m c) → ∃ t, encodeFrame p m s = .ok t ∧
      t.cwbuf.map BitVec.toNat = Source.encode p m s.pbuf s.eci ∧ t = { s with cwbuf := t.cwbuf }) ∧
    (∀ i c, s.pbuf[i]? = some c → ¬ Source.Mappable p m c →
      (∀ j d, j < i → s.pbuf[j]? = some d → Source.Mappable p m d) →
      encodeFrame p m s =
        .error { s with status := { halt := true, cause := some .map }, finfo := BitVec.ofNat 32 i, cwbuf := [] })

/-! ## The bit serializer -/

/-- R171: `TOBITS` on codewords below 256, and its OVF fault at the least index of a codeword of 256 or more, which leaves
no bit string. -/
def Obligations.TobitsResult : Prop :=
  decode (.write 0#4 0x00000030#32) = .ok .tobits ∧
    (∀ s, s.Running → (∀ w ∈ s.cwbuf, w.toNat < 256) → ∃ t, exec .tobits s = .next t ∧
      t.obuf.map BitVec.toNat = s.cwbuf.map BitVec.toNat ∧
      t.obn = s.cwn ∧ t.bitn = BitVec.ofNat 21 (8 * s.cwbuf.length) ∧
      t.bits = Source.toBits (s.cwbuf.map BitVec.toNat) ∧
      t = { s with obuf := t.obuf }) ∧
    (∀ s j w, s.Running → s.cwbuf[j]? = some w → 256 ≤ w.toNat →
      (∀ k v, k < j → s.cwbuf[k]? = some v → v.toNat < 256) →
      exec .tobits s =
        .next { s with status := { halt := true, cause := some .ovf }, finfo := BitVec.ofNat 32 j, obuf := [] })

/-- R60, R170: bit `8j + b` of the bit string is bit `7 - b` of codeword `j`. -/
def Obligations.BitStringOrder : Prop :=
  ∀ s t j w b, s.Running → exec .tobits s = .next t → t.Running → s.cwbuf[j]? = some w → b ≤ 7 →
    t.bits[8 * j + b]? = some (w.getLsbD (7 - b))

/-- R173: after an encode and a serialize, both without fault, `BITN = 8·CWN`. -/
def Obligations.BitStringLengthLaw : Prop :=
  ∀ s t u i, i ∈ [Instr.encN, .encA, .encB, .encK, .encE, .encS] → s.Running → Memory.wf s →
    exec i s = .next t → t.Running → exec .tobits t = .next u → u.Running →
    u.bitn.toNat = 8 * u.cwn.toNat ∧ u.bits.length = 8 * u.cwbuf.length

/-! ## The version estimator -/

/-- R182: `ESTVER` writes the row that holds `CWN`, or 0, and changes nothing else. -/
def Obligations.EstverWritesRow : Prop :=
  decode (.write 0#4 0x00000040#32) = .ok .estver ∧
    ∀ s, s.Running → ∃ t, exec .estver s = .next t ∧
      t.vidx.toNat = Source.versionIndex Config.params s.cwbuf.length ∧
      t = { s with vidx := t.vidx }

/-- The results fixed for every admissible choice of the open bounds, as 43_version_estimator.md
derives them from R181. -/
def Obligations.EstverFixedResults : Prop :=
  ∀ s t, s.Running → exec .estver s = .next t →
    (s.cwbuf.length = 0 → t.vidx = 0#4) ∧
      (1 ≤ s.cwbuf.length → s.cwbuf.length ≤ 17 → t.vidx = 1#4) ∧
      (18 ≤ s.cwbuf.length → s.cwbuf.length ≤ 32 → t.vidx = 2#4) ∧
      (s.cwbuf.length = 33 → t.vidx = 3#4) ∧
      (s.cwbuf.length = 437 → t.vidx = 14#4) ∧
      (438 ≤ s.cwbuf.length → s.cwbuf.length ≤ 480 → t.vidx = 15#4) ∧
      (481 ≤ s.cwbuf.length → t.vidx = 0#4)

/-- For counts from 34 to 436 the row is in 3 to 14 and does not decrease with the count (derived in
43_version_estimator.md from R181); and equal counts give equal rows, whatever else differs (R184). -/
def Obligations.EstverMonotone : Prop :=
  ∀ s u s' u', s.Running → u.Running → exec .estver s = .next s' → exec .estver u = .next u' →
    (34 ≤ s.cwbuf.length → s.cwbuf.length ≤ u.cwbuf.length → u.cwbuf.length ≤ 436 →
      3 ≤ s'.vidx.toNat ∧ s'.vidx.toNat ≤ u'.vidx.toNat ∧ u'.vidx.toNat ≤ 14) ∧
    (s.cwbuf.length = u.cwbuf.length → s'.vidx = u'.vidx)

/-- R185, for the two labels whose text the source gives. -/
def Obligations.LabelsOfTheSource : Prop :=
  label 0#4 = "Unknown QR Code Format" ∧ label 1#4 = "Version 1 (21x21 modules)"

/-- R8: the selector for any tables, and the version lookup for any admissible bounds, against the source's functions. -/
def Obligations.SelectAndEstimateForEveryTable : Prop :=
  (∀ p payload, selectMode p payload = Source.selectMode p payload) ∧
    ∀ p c, Config.Params.admissible p = true → versionRow p c = Source.versionIndex p c

/-! ## Control commands and host writes -/

/-- R195: `PCLR`; it is ignored while halted. -/
def Obligations.PclrClearsPayload : Prop :=
  decode (.write 0#4 0x00000050#32) = .ok .pclr ∧
    ∀ s, (s.Running → ∃ t, exec .pclr s = .next t ∧ t.plen = 0#16 ∧ t = { s with pbuf := [] }) ∧
      (s.Halted → exec .pclr s = .next s)

/-- R191: a write to `PDATA` pushes bits 20 to 0 of the word. Below `MAXLEN` it appends the element, and the elements
before it stay where they were; into a full buffer it raises PFULL and the element is dropped. No instruction changes the
payload in any other way than by appending one element or by dropping them all. -/
def Obligations.PushAppends : Prop :=
  (∀ v, decode (.write 3#4 v) = .ok (.push (v.extractLsb' 0 21))) ∧
    (∀ s e, s.Running → s.pbuf.length < 65535 → ∃ t, exec (.push e) s = .next t ∧
      t.pbuf[s.pbuf.length]? = some e ∧
      (∀ k, k ≠ s.pbuf.length → t.pbuf[k]? = s.pbuf[k]?) ∧
      t.plen.toNat = s.plen.toNat + 1 ∧
      t = { s with pbuf := t.pbuf }) ∧
    (∀ s e, s.Running → s.pbuf.length = 65535 → ∃ t, exec (.push e) s = .next t ∧
      t.status = { halt := true, cause := some .pfull } ∧ t.finfo.toNat = e.toNat ∧
      t = { s with status := t.status, finfo := t.finfo }) ∧
    ∀ i s t, exec i s = .next t → t.pbuf = s.pbuf ∨ t.pbuf = [] ∨ ∃ e, i = .push e ∧ t.pbuf = s.pbuf ++ [e]

/-- R192: a write to `ECI` sets `V` from bit 31 and `VAL` from bits 23 to 0, and a read returns both. -/
def Obligations.EciWritesAndReadsBack : Prop :=
  (∀ v : Word, decode (.write 5#4 v) =
      .ok (if v.getLsbD 31 then .seteci (v.extractLsb' 0 24) else .clreci (v.extractLsb' 0 24))) ∧
    ∀ s val, s.Running →
      exec (.seteci val) s = .next { s with eci := { v := true, val := val } } ∧
        exec (.clreci val) s = .next { s with eci := { v := false, val := val } } ∧
        (∃ t, exec .rdEci { s with eci := { v := true, val := val } } = .next t ∧ t.hrdata.toNat = 2 ^ 31 + val.toNat) ∧
        ∃ t, exec .rdEci { s with eci := { v := false, val := val } } = .next t ∧ t.hrdata.toNat = val.toNat

/-- R193: a write to `CWIDX` or `OBIDX` stores bits 17 to 0, any value, halted or not; at or above the count the data
register then reads 0. -/
def Obligations.IndexWrites : Prop :=
  (∀ v, decode (.write 8#4 v) = .ok (.setcwidx (v.extractLsb' 0 18)) ∧
      decode (.write 11#4 v) = .ok (.setobidx (v.extractLsb' 0 18))) ∧
    ∀ s n,
      exec (.setcwidx n) s = .next { s with cwidx := n } ∧
        exec (.setobidx n) s = .next { s with obidx := n } ∧
        (s.cwbuf.length ≤ n.toNat → exec .rdCwdata { s with cwidx := n } = .next { s with cwidx := n, hrdata := 0#32 }) ∧
        (s.obuf.length ≤ n.toNat → exec .rdObdata { s with obidx := n } = .next { s with obidx := n, hrdata := 0#32 })

/-- R65: writes to `ECI`, `CWIDX`, `OBIDX` and all reads are idempotent. -/
def Obligations.IdempotentTransactions : Prop :=
  ∀ i s t, (∀ e, i ≠ .push e) → i.isCommand = false → exec i s = .next t → exec i t = .next t

/-! ## Host reads -/

/-- R194: every read completes, halted or not, with the value of its row, and changes nothing of the machine. -/
def Obligations.ReadsReturnTheirRegister : Prop :=
  ∀ s, Memory.wf s →
    ∀ q ∈ [(Reg.cmd, Instr.rdCmd), (.status, .rdStatus), (.finfo, .rdFinfo), (.pdata, .rdPdata), (.plen, .rdPlen),
        (.eci, .rdEci), (.mode, .rdMode), (.cwn, .rdCwn), (.cwidx, .rdCwidx), (.cwdata, .rdCwdata), (.bitn, .rdBitn),
        (.obidx, .rdObidx), (.obdata, .rdObdata), (.ver, .rdVer), (.cfg, .rdCfg), (.id, .rdId)],
      decode (.read q.1.idx) = .ok q.2 ∧
        ∃ t, exec q.2 s = .next t ∧ t.hrdata.toNat = readNumber q.1 s ∧ t = { s with hrdata := t.hrdata }

/-- R29: the two windows inside and outside the counts. -/
def Obligations.WindowsReadZeroOutside : Prop :=
  ∀ s,
    (∀ w, s.cwbuf[s.cwidx.toNat]? = some w → exec .rdCwdata s = .next { s with hrdata := w.setWidth 32 }) ∧
      (s.cwbuf.length ≤ s.cwidx.toNat → exec .rdCwdata s = .next { s with hrdata := 0#32 }) ∧
      (∀ b, s.obuf[s.obidx.toNat]? = some b → exec .rdObdata s = .next { s with hrdata := b.setWidth 32 }) ∧
      (s.obuf.length ≤ s.obidx.toNat → exec .rdObdata s = .next { s with hrdata := 0#32 })

/-- R97: the only values `STATUS` ever reads as and its two fields, and what `MODE` and `VER` read as. The premise is the invariant below. -/
def Obligations.StatusModeVerReadValues : Prop :=
  ∀ s, s.Inv →
    (∃ t, exec .rdStatus s = .next t ∧ t.hrdata ∈ [0x00#32, 0x11#32, 0x21#32, 0x31#32, 0x41#32, 0x51#32] ∧
        t.hrdata.getLsbD 0 = s.status.halt ∧ (t.hrdata.extractLsb' 4 4).toNat = causeNumber s.status.cause) ∧
      (∃ t, exec .rdMode s = .next t ∧ t.hrdata ∈ [0#32, 1#32, 2#32, 4#32, 7#32, 8#32] ∧
        t.hrdata.toNat = modeNumber s.mode) ∧
      ∃ t, exec .rdVer s = .next t ∧ t.hrdata = s.vidx.setWidth 32

/-! ## Halting -/

/-- R209: while halted, a write to `CMD` of any word but `SRST`, a write to `PDATA` and a write to `ECI` have no effect of
any kind; writes to the index registers and all reads work. -/
def Obligations.HaltedIsFrozen : Prop :=
  ∀ s, s.Halted →
    (∀ w, w ≠ 0x000000F0#32 → serveTxn (.write 0#4 w) s = .next s) ∧
      (∀ v, serveTxn (.write 3#4 v) s = .next s) ∧
      (∀ v, serveTxn (.write 5#4 v) s = .next s) ∧
      (∀ v, serveTxn (.write 8#4 v) s = .next { s with cwidx := v.extractLsb' 0 18 }) ∧
      (∀ v, serveTxn (.write 11#4 v) s = .next { s with obidx := v.extractLsb' 0 18 }) ∧
      (Memory.wf s → ∀ r : Reg, ∃ t, serveTxn (.read r.idx) s = .next t ∧ t.hrdata.toNat = readNumber r s ∧
        t = { s with hrdata := t.hrdata })

/-- R207, R208: a step leaves the halted state by `SRST` or hardware reset only, and any other step keeps the first
fault's cause and information. That a reset keeps the events to come and the last read value is the model's choice
(logs 1, 3, 10). -/
def Obligations.FirstFaultIsKept : Prop :=
  ∀ s t, s.Halted → step s = .next t →
    (t.status = s.status ∧ t.finfo = s.finfo) ∨
      (∃ rest, (s.hostIn = .hwReset :: rest ∨ s.hostIn = .txn (.write 0#4 0x000000F0#32) :: rest) ∧
        t = { State.reset with hostIn := rest, hrdata := s.hrdata })

/-- R205, R201: a step that halts a running machine served a transaction that raises some cause with some information
(`RaisedBy`, which is R201 row by row), recorded both, emptied the destination of that cause only, and left all else. That
the step also takes the transaction off the events to come is the model's choice (log 1). -/
def Obligations.FaultEntryIsPrecise : Prop :=
  ∀ s t, s.Running → step s = .next t → t.Halted →
    ∃ x rest c info, s.hostIn = .txn x :: rest ∧ RaisedBy s x c info ∧
      t = { s with
            hostIn := rest
            status := { halt := true, cause := some c }
            finfo := info
            cwbuf := if c = .map then [] else s.cwbuf
            obuf := if c = .ovf then [] else s.obuf }

/-! ## Whole-machine rules -/

/-- R244: every host transaction completes: a step always answers a next state. That the step takes the oldest event off
the events to come, and none when there is none, is the model's choice (logs 1, 2). -/
def Obligations.EveryStepCompletes : Prop :=
  ∀ s, ∃ t, step s = .next t ∧ t.hostIn = s.hostIn.tail

/-- R20's "written by" column, with the instructions that can raise one of the faults of R201: which instructions can
change each piece of state. The last two clauses are the model's choice, on the host's side of the port: a read alone
changes the last read value (logs 3, 10), and no instruction, `SRST` among them, changes the events to come (logs 1,
10). -/
def Obligations.WrittenByColumn : Prop :=
  ∀ i s t, exec i s = .next t →
    (t.pbuf ≠ s.pbuf → (∃ e, i = .push e) ∨ i = .pclr ∨ i = .srst) ∧
      (t.eci ≠ s.eci → (∃ v, i = .seteci v) ∨ (∃ v, i = .clreci v) ∨ i = .srst) ∧
      (t.mode ≠ s.mode → i = .selmode ∨ i = .srst) ∧
      (t.cwbuf ≠ s.cwbuf → i ∈ [Instr.encN, .encA, .encB, .encK, .encE, .encS, .srst]) ∧
      (t.obuf ≠ s.obuf → i = .tobits ∨ i = .srst) ∧
      (t.vidx ≠ s.vidx → i = .estver ∨ i = .srst) ∧
      (t.status ≠ s.status ∨ t.finfo ≠ s.finfo →
        (∃ e, i = .push e) ∨ i ∈ [Instr.encB, .encK, .encS, .tobits, .srst]) ∧
      (t.cwidx ≠ s.cwidx → (∃ n, i = .setcwidx n) ∨ i = .srst) ∧
      (t.obidx ≠ s.obidx → (∃ n, i = .setobidx n) ∨ i = .srst) ∧
      (t.hrdata ≠ s.hrdata → ∃ r : Reg, encode i = .read r.idx) ∧
      t.hostIn = s.hostIn

/-- The invariant of 10_state.md section 5 (which the spec derives), with R27 and R28, is kept by every step from every
state that meets it. -/
def Obligations.InvariantKeptByStep : Prop :=
  ∀ s t, s.Inv → step s = .next t → t.Inv

/-- The invariant of 10_state.md section 5 at reset. -/
def Obligations.InvariantAtReset : Prop :=
  State.reset.Inv

/-- R69: how the buffers change. Over a whole instruction the payload is extended or emptied, and each of the other two
is unchanged, emptied, or written by its own commands. Inside those commands every part that writes a buffer extends it:
a single codeword, the count, the designator and the payload codewords extend `CWBUF`, and the serializer's loop extends
`OBUF`. -/
def Obligations.BuffersAreAppendOnly : Prop :=
  (∀ i s t, exec i s = .next t →
      (s.pbuf <+: t.pbuf ∨ t.pbuf = []) ∧
        (t.cwbuf = s.cwbuf ∨ t.cwbuf = [] ∨ (i ∈ [Instr.encN, .encA, .encB, .encK, .encE, .encS])) ∧
        (t.obuf = s.obuf ∨ t.obuf = [] ∨ i = .tobits)) ∧
    (∀ v m n s, s.cwbuf <+: (emit v s).cwbuf ∧ s.cwbuf <+: (emitCount m n s).cwbuf ∧
      s.cwbuf <+: (emitDesignator s).cwbuf) ∧
    (∀ p m i cs s t, payLoop p m i cs s = .ok t → s.cwbuf <+: t.cwbuf) ∧
    ∀ j ws s t, serializeLoop j ws s = .ok t → s.obuf <+: t.obuf

/-- The net effect that 44_control_and_host.md section 5 derives: the pipeline `SELMODE; ENC.S; TOBITS; ESTVER` from a
running state computes the source's four functions, or halts with MAP at `ENC.S` or with OVF at `TOBITS`, with the results
it names left as they were. -/
def Obligations.PipelineComputesSource : Prop :=
  ∀ s m cw, s.Running → Memory.wf s → m = Source.selectMode Config.params s.pbuf →
    cw = Source.encode Config.params m s.pbuf s.eci →
    ∃ t1 t2 t3 t4, exec .selmode s = .next t1 ∧ exec .encS t1 = .next t2 ∧ exec .tobits t2 = .next t3 ∧
      exec .estver t3 = .next t4 ∧
      ((∀ c ∈ s.pbuf, Source.Mappable Config.params m c) → (∀ w ∈ cw, w < 256) →
        t4.mode = some m ∧ t4.cwbuf.map BitVec.toNat = cw ∧ t4.bits = Source.toBits cw ∧
          t4.vidx.toNat = Source.versionIndex Config.params cw.length ∧
          t4 = { s with mode := t4.mode, cwbuf := t4.cwbuf, obuf := t4.obuf, vidx := t4.vidx }) ∧
      ((∃ c ∈ s.pbuf, ¬ Source.Mappable Config.params m c) →
        t4.status = { halt := true, cause := some .map } ∧
          t4 = { s with mode := some m, cwbuf := [], status := t4.status, finfo := t4.finfo }) ∧
      ((∀ c ∈ s.pbuf, Source.Mappable Config.params m c) → (∃ w ∈ cw, 256 ≤ w) →
        t4.status = { halt := true, cause := some .ovf } ∧ t4.cwbuf.map BitVec.toNat = cw ∧
          t4 = { s with mode := some m, cwbuf := t4.cwbuf, obuf := [], status := t4.status, finfo := t4.finfo })

end
end

