-- ==== Sys2Proof/Laws/Decode.lean ====
section
/-! SUPPORT. The fields of a written word: what the decoder reads from a word the encoder built, and the other way
round. -/

namespace Sys2Proof

/-- A field at the bottom of a word comes back from the word that carries it. -/
theorem extract_setWidth {n : Nat} (x : BitVec n) (h : n ≤ 32) : (x.setWidth 32).extractLsb' 0 n = x := by
  apply BitVec.eq_of_toNat_eq
  have hx := x.isLt
  have hn : (2 : Nat) ^ n ≤ 2 ^ 32 := Nat.pow_le_pow_right (by decide) h
  simp only [BitVec.extractLsb'_toNat, BitVec.toNat_setWidth, Nat.shiftRight_zero]
  rw [Nat.mod_eq_of_lt (Nat.lt_of_lt_of_le hx hn), Nat.mod_eq_of_lt hx]

/-- Keeping the low `n` bits of a word is masking it. -/
theorem setWidth_extract (n : Nat) (v mask : Word) (h : n ≤ 32) (hm : mask.toNat = 2 ^ n - 1) :
    (v.extractLsb' 0 n).setWidth 32 = v &&& mask := by
  apply BitVec.eq_of_toNat_eq
  have hn : (2 : Nat) ^ n ≤ 2 ^ 32 := Nat.pow_le_pow_right (by decide) h
  have hlt : v.toNat % 2 ^ n < 2 ^ n := Nat.mod_lt _ (Nat.two_pow_pos n)
  simp only [BitVec.toNat_setWidth, BitVec.extractLsb'_toNat, Nat.shiftRight_zero, BitVec.toNat_and, hm,
    Nat.and_two_pow_sub_one_eq_mod]
  exact Nat.mod_eq_of_lt (Nat.lt_of_lt_of_le hlt hn)

/-- An `ECI` word as a number: `V·2^31 + VAL` (30_encoding.md R93). -/
theorem eciWord_toNat (v : Bool) (val : Desig) :
    (eciWord v val).toNat = (if v then 1 else 0) * 2 ^ 31 + val.toNat := by
  have hval := val.isLt
  simp only [eciWord, BitVec.toNat_append, BitVec.toNat_ofBool]
  rw [← Nat.shiftLeft_add_eq_or_of_lt hval, ← Nat.shiftLeft_add_eq_or_of_lt (show (0#7).toNat < 2 ^ 7 by decide)]
  cases v <;> simp [Nat.shiftLeft_eq]

@[simp] theorem eciWord_val (v : Bool) (val : Desig) : (eciWord v val).extractLsb' 0 24 = val := by
  apply BitVec.eq_of_toNat_eq
  have hval := val.isLt
  simp only [BitVec.extractLsb'_toNat, eciWord_toNat, Nat.shiftRight_zero]
  cases v <;> simp <;> omega

@[simp] theorem eciWord_v (v : Bool) (val : Desig) : (eciWord v val).getLsbD 31 = v := by
  have hval := val.isLt
  rw [BitVec.getLsbD, eciWord_toNat, Nat.testBit_eq_decide_div_mod_eq]
  cases v <;> simp <;> omega

/-- An `ECI` word is its two fields and its ignored bits. -/
theorem eciWord_of_fields (v : Word) :
    eciWord (v.getLsbD 31) (v.extractLsb' 0 24) = v &&& 0x80FFFFFF#32 := by
  apply BitVec.eq_of_getLsbD_eq
  intro i hi
  simp only [eciWord, BitVec.getLsbD_append, BitVec.getLsbD_extractLsb', BitVec.getLsbD_and, BitVec.getLsbD_ofBool,
    BitVec.getLsbD_zero, Nat.zero_add]
  have hmask : (0x80FFFFFF#32).getLsbD i = (decide (i < 24) || decide (i = 31)) := by
    revert i; decide
  rw [hmask]
  by_cases h24 : i < 24
  · simp [h24]
  · by_cases h31 : i < 31
    · have : i ≠ 31 := by omega
      have h7 : i - 24 < 7 := by omega
      simp [h24, h7, this]
    · have : i = 31 := by omega
      subst this
      simp

/-- The number an assembler statement writes is cut to the register's field (30_encoding.md R104). -/
theorem extract_ofNat (n k : Nat) (h : k ≤ 32) : (BitVec.ofNat 32 n).extractLsb' 0 k = BitVec.ofNat k n := by
  apply BitVec.eq_of_toNat_eq
  simp only [BitVec.extractLsb'_toNat, BitVec.toNat_ofNat, Nat.shiftRight_zero]
  exact Nat.mod_mod_of_dvd _ (Nat.pow_dvd_pow 2 h)

end Sys2Proof
end

