-- ==== Sys2Proof/Laws/Operands.lean ====
section
/-! SUPPORT. The character classes, operands and registers of the model in the terms of Safety.lean, and what the
constraints on the open parameters give. -/

namespace Sys2Proof.Machine

/-! ### Character classes -/

@[simp] theorem isDigit_iff (c : Elem) : isDigit c = true ↔ Source.Digit c := by simp [isDigit, Source.Digit]

@[simp] theorem isUpper_iff (c : Elem) : isUpper c = true ↔ Source.Upper c := by simp [isUpper, Source.Upper]

@[simp] theorem isLower_iff (c : Elem) : isLower c = true ↔ Source.Lower c := by simp [isLower, Source.Lower]

@[simp] theorem isAlnum_iff (c : Elem) : isAlnum c = true ↔ Source.Alnum c := by
  simp only [isAlnum, Bool.or_eq_true, isDigit_iff, isUpper_iff, isLower_iff, Source.Alnum]
  tauto

@[simp] theorem isScalar_iff (c : Elem) : isScalar c = true ↔ Source.Scalar c := by simp [isScalar, Source.Scalar]

@[simp] theorem isKanji_iff (p : Config.Params) (c : Elem) : isKanji p c = true ↔ Source.Kanji p c := by
  simp [isKanji, Source.Kanji, List.any_eq_true]

/-! ### The constraints of 00_scope.md R8 -/

/-- An element of an admissible `KANJI_SET` is a scalar value and not ASCII (40_mode_selector.md R123). -/
theorem kanji_scalar_nonAscii {p : Config.Params} (h : p.admissible = true) {c : Elem} (hc : Source.Kanji p c) :
    Source.Scalar c ∧ 0x80 ≤ c.toNat := by
  obtain ⟨r, hr, hlo, hhi⟩ := hc
  simp only [Config.Params.admissible, Bool.and_eq_true, List.all_eq_true] at h
  have hok := h.1 r hr
  simp only [Config.CodeRange.ok, Bool.or_eq_true, Bool.and_eq_true, decide_eq_true_eq] at hok
  simp only [Source.Scalar]
  omega

/-- The upper bounds of an admissible version table rise strictly, fifteen in number. -/
theorem upperBounds_pairwise {p : Config.Params} (h : p.admissible = true) :
    (Source.upperBounds p).Pairwise (· < ·) ∧ (Source.upperBounds p).length = 15 := by
  simp only [Config.Params.admissible, Bool.and_eq_true, decide_eq_true_eq] at h
  obtain ⟨-, hlen, hp⟩ := h
  simp only [Source.upperBounds, List.length_cons, List.length_append, List.pairwise_cons, List.pairwise_append,
    List.cons_append] at hp ⊢
  obtain ⟨h32, hmid, -, h437⟩ := hp
  have hin : ∀ a ∈ p.vtMid, a < 437 := fun a ha => h437 a ha 437 (by simp)
  have h32' : ∀ a ∈ p.vtMid, 32 < a := fun a ha => h32 a (by simp [ha])
  refine ⟨⟨?_, ?_, hmid, by simp, ?_⟩, by simp [hlen]⟩
  · intro a ha
    simp only [List.mem_cons, List.mem_append, List.not_mem_nil, or_false] at ha
    rcases ha with rfl | ha | rfl | rfl
    · decide
    · exact Nat.lt_trans (by decide) (h32' a ha)
    · decide
    · decide
  · intro a ha
    simp only [List.mem_cons, List.mem_append, List.not_mem_nil, or_false] at ha
    rcases ha with ha | rfl | rfl
    · exact h32' a ha
    · decide
    · decide
  · intro a ha b hb
    have := hin a ha
    simp only [List.mem_cons, List.not_mem_nil, or_false] at hb
    omega

/-! ### Operands -/

theorem designator_eq (s : State) : s.designator = if s.eci.v then some s.eci.val else none := rfl

@[simp] theorem modeBits_toNat (s : State) : s.modeBits.toNat = modeNumber s.mode := by
  rcases h : s.mode with _ | m
  · simp [State.modeBits, h, modeNumber]
  · cases m <;> simp [State.modeBits, h, modeNumber, Mode.indicator]

@[simp] theorem causeBits_toNat (st : Status) : st.causeBits.toNat = causeNumber st.cause := by
  rcases h : st.cause with _ | c
  · simp [Status.causeBits, h, causeNumber]
  · cases c <;> simp [Status.causeBits, h, causeNumber, Cause.code]

end Sys2Proof.Machine
end

