-- ==== Sys2Proof/Laws/State.lean ====
section
/-! SUPPORT. What each named update of Machine/Ops.lean leaves in each field of the state: one lemma per field per
update, so that no later proof unfolds a record update. -/

namespace Sys2Proof.Machine

@[simp] theorem appendElem_pbuf (e : Elem) (s : State) : (appendElem e s).pbuf = s.pbuf ++ [e] := rfl
@[simp] theorem appendElem_eci (e : Elem) (s : State) : (appendElem e s).eci = s.eci := rfl
@[simp] theorem appendElem_mode (e : Elem) (s : State) : (appendElem e s).mode = s.mode := rfl
@[simp] theorem appendElem_cwbuf (e : Elem) (s : State) : (appendElem e s).cwbuf = s.cwbuf := rfl
@[simp] theorem appendElem_obuf (e : Elem) (s : State) : (appendElem e s).obuf = s.obuf := rfl
@[simp] theorem appendElem_vidx (e : Elem) (s : State) : (appendElem e s).vidx = s.vidx := rfl
@[simp] theorem appendElem_status (e : Elem) (s : State) : (appendElem e s).status = s.status := rfl
@[simp] theorem appendElem_finfo (e : Elem) (s : State) : (appendElem e s).finfo = s.finfo := rfl
@[simp] theorem appendElem_cwidx (e : Elem) (s : State) : (appendElem e s).cwidx = s.cwidx := rfl
@[simp] theorem appendElem_obidx (e : Elem) (s : State) : (appendElem e s).obidx = s.obidx := rfl
@[simp] theorem appendElem_hostIn (e : Elem) (s : State) : (appendElem e s).hostIn = s.hostIn := rfl
@[simp] theorem appendElem_hrdata (e : Elem) (s : State) : (appendElem e s).hrdata = s.hrdata := rfl

@[simp] theorem clearPayload_pbuf (s : State) : (clearPayload s).pbuf = [] := rfl
@[simp] theorem clearPayload_eci (s : State) : (clearPayload s).eci = s.eci := rfl
@[simp] theorem clearPayload_mode (s : State) : (clearPayload s).mode = s.mode := rfl
@[simp] theorem clearPayload_cwbuf (s : State) : (clearPayload s).cwbuf = s.cwbuf := rfl
@[simp] theorem clearPayload_obuf (s : State) : (clearPayload s).obuf = s.obuf := rfl
@[simp] theorem clearPayload_vidx (s : State) : (clearPayload s).vidx = s.vidx := rfl
@[simp] theorem clearPayload_status (s : State) : (clearPayload s).status = s.status := rfl
@[simp] theorem clearPayload_finfo (s : State) : (clearPayload s).finfo = s.finfo := rfl
@[simp] theorem clearPayload_cwidx (s : State) : (clearPayload s).cwidx = s.cwidx := rfl
@[simp] theorem clearPayload_obidx (s : State) : (clearPayload s).obidx = s.obidx := rfl
@[simp] theorem clearPayload_hostIn (s : State) : (clearPayload s).hostIn = s.hostIn := rfl
@[simp] theorem clearPayload_hrdata (s : State) : (clearPayload s).hrdata = s.hrdata := rfl

@[simp] theorem writeEci_pbuf (v : Bool) (val : Desig) (s : State) : (writeEci v val s).pbuf = s.pbuf := rfl
@[simp] theorem writeEci_eci (v : Bool) (val : Desig) (s : State) : (writeEci v val s).eci = { v := v, val := val } := rfl
@[simp] theorem writeEci_mode (v : Bool) (val : Desig) (s : State) : (writeEci v val s).mode = s.mode := rfl
@[simp] theorem writeEci_cwbuf (v : Bool) (val : Desig) (s : State) : (writeEci v val s).cwbuf = s.cwbuf := rfl
@[simp] theorem writeEci_obuf (v : Bool) (val : Desig) (s : State) : (writeEci v val s).obuf = s.obuf := rfl
@[simp] theorem writeEci_vidx (v : Bool) (val : Desig) (s : State) : (writeEci v val s).vidx = s.vidx := rfl
@[simp] theorem writeEci_status (v : Bool) (val : Desig) (s : State) : (writeEci v val s).status = s.status := rfl
@[simp] theorem writeEci_finfo (v : Bool) (val : Desig) (s : State) : (writeEci v val s).finfo = s.finfo := rfl
@[simp] theorem writeEci_cwidx (v : Bool) (val : Desig) (s : State) : (writeEci v val s).cwidx = s.cwidx := rfl
@[simp] theorem writeEci_obidx (v : Bool) (val : Desig) (s : State) : (writeEci v val s).obidx = s.obidx := rfl
@[simp] theorem writeEci_hostIn (v : Bool) (val : Desig) (s : State) : (writeEci v val s).hostIn = s.hostIn := rfl
@[simp] theorem writeEci_hrdata (v : Bool) (val : Desig) (s : State) : (writeEci v val s).hrdata = s.hrdata := rfl

@[simp] theorem writeMode_pbuf (m : Mode) (s : State) : (writeMode m s).pbuf = s.pbuf := rfl
@[simp] theorem writeMode_eci (m : Mode) (s : State) : (writeMode m s).eci = s.eci := rfl
@[simp] theorem writeMode_mode (m : Mode) (s : State) : (writeMode m s).mode = some m := rfl
@[simp] theorem writeMode_cwbuf (m : Mode) (s : State) : (writeMode m s).cwbuf = s.cwbuf := rfl
@[simp] theorem writeMode_obuf (m : Mode) (s : State) : (writeMode m s).obuf = s.obuf := rfl
@[simp] theorem writeMode_vidx (m : Mode) (s : State) : (writeMode m s).vidx = s.vidx := rfl
@[simp] theorem writeMode_status (m : Mode) (s : State) : (writeMode m s).status = s.status := rfl
@[simp] theorem writeMode_finfo (m : Mode) (s : State) : (writeMode m s).finfo = s.finfo := rfl
@[simp] theorem writeMode_cwidx (m : Mode) (s : State) : (writeMode m s).cwidx = s.cwidx := rfl
@[simp] theorem writeMode_obidx (m : Mode) (s : State) : (writeMode m s).obidx = s.obidx := rfl
@[simp] theorem writeMode_hostIn (m : Mode) (s : State) : (writeMode m s).hostIn = s.hostIn := rfl
@[simp] theorem writeMode_hrdata (m : Mode) (s : State) : (writeMode m s).hrdata = s.hrdata := rfl

@[simp] theorem clearCodewords_pbuf (s : State) : (clearCodewords s).pbuf = s.pbuf := rfl
@[simp] theorem clearCodewords_eci (s : State) : (clearCodewords s).eci = s.eci := rfl
@[simp] theorem clearCodewords_mode (s : State) : (clearCodewords s).mode = s.mode := rfl
@[simp] theorem clearCodewords_cwbuf (s : State) : (clearCodewords s).cwbuf = [] := rfl
@[simp] theorem clearCodewords_obuf (s : State) : (clearCodewords s).obuf = s.obuf := rfl
@[simp] theorem clearCodewords_vidx (s : State) : (clearCodewords s).vidx = s.vidx := rfl
@[simp] theorem clearCodewords_status (s : State) : (clearCodewords s).status = s.status := rfl
@[simp] theorem clearCodewords_finfo (s : State) : (clearCodewords s).finfo = s.finfo := rfl
@[simp] theorem clearCodewords_cwidx (s : State) : (clearCodewords s).cwidx = s.cwidx := rfl
@[simp] theorem clearCodewords_obidx (s : State) : (clearCodewords s).obidx = s.obidx := rfl
@[simp] theorem clearCodewords_hostIn (s : State) : (clearCodewords s).hostIn = s.hostIn := rfl
@[simp] theorem clearCodewords_hrdata (s : State) : (clearCodewords s).hrdata = s.hrdata := rfl

@[simp] theorem emit_pbuf (v : Nat) (s : State) : (emit v s).pbuf = s.pbuf := rfl
@[simp] theorem emit_eci (v : Nat) (s : State) : (emit v s).eci = s.eci := rfl
@[simp] theorem emit_mode (v : Nat) (s : State) : (emit v s).mode = s.mode := rfl
@[simp] theorem emit_cwbuf (v : Nat) (s : State) : (emit v s).cwbuf = s.cwbuf ++ [BitVec.ofNat 16 v] := rfl
@[simp] theorem emit_obuf (v : Nat) (s : State) : (emit v s).obuf = s.obuf := rfl
@[simp] theorem emit_vidx (v : Nat) (s : State) : (emit v s).vidx = s.vidx := rfl
@[simp] theorem emit_status (v : Nat) (s : State) : (emit v s).status = s.status := rfl
@[simp] theorem emit_finfo (v : Nat) (s : State) : (emit v s).finfo = s.finfo := rfl
@[simp] theorem emit_cwidx (v : Nat) (s : State) : (emit v s).cwidx = s.cwidx := rfl
@[simp] theorem emit_obidx (v : Nat) (s : State) : (emit v s).obidx = s.obidx := rfl
@[simp] theorem emit_hostIn (v : Nat) (s : State) : (emit v s).hostIn = s.hostIn := rfl
@[simp] theorem emit_hrdata (v : Nat) (s : State) : (emit v s).hrdata = s.hrdata := rfl

@[simp] theorem clearGroups_pbuf (s : State) : (clearGroups s).pbuf = s.pbuf := rfl
@[simp] theorem clearGroups_eci (s : State) : (clearGroups s).eci = s.eci := rfl
@[simp] theorem clearGroups_mode (s : State) : (clearGroups s).mode = s.mode := rfl
@[simp] theorem clearGroups_cwbuf (s : State) : (clearGroups s).cwbuf = s.cwbuf := rfl
@[simp] theorem clearGroups_obuf (s : State) : (clearGroups s).obuf = [] := rfl
@[simp] theorem clearGroups_vidx (s : State) : (clearGroups s).vidx = s.vidx := rfl
@[simp] theorem clearGroups_status (s : State) : (clearGroups s).status = s.status := rfl
@[simp] theorem clearGroups_finfo (s : State) : (clearGroups s).finfo = s.finfo := rfl
@[simp] theorem clearGroups_cwidx (s : State) : (clearGroups s).cwidx = s.cwidx := rfl
@[simp] theorem clearGroups_obidx (s : State) : (clearGroups s).obidx = s.obidx := rfl
@[simp] theorem clearGroups_hostIn (s : State) : (clearGroups s).hostIn = s.hostIn := rfl
@[simp] theorem clearGroups_hrdata (s : State) : (clearGroups s).hrdata = s.hrdata := rfl

@[simp] theorem outByte_pbuf (b : Group) (s : State) : (outByte b s).pbuf = s.pbuf := rfl
@[simp] theorem outByte_eci (b : Group) (s : State) : (outByte b s).eci = s.eci := rfl
@[simp] theorem outByte_mode (b : Group) (s : State) : (outByte b s).mode = s.mode := rfl
@[simp] theorem outByte_cwbuf (b : Group) (s : State) : (outByte b s).cwbuf = s.cwbuf := rfl
@[simp] theorem outByte_obuf (b : Group) (s : State) : (outByte b s).obuf = s.obuf ++ [b] := rfl
@[simp] theorem outByte_vidx (b : Group) (s : State) : (outByte b s).vidx = s.vidx := rfl
@[simp] theorem outByte_status (b : Group) (s : State) : (outByte b s).status = s.status := rfl
@[simp] theorem outByte_finfo (b : Group) (s : State) : (outByte b s).finfo = s.finfo := rfl
@[simp] theorem outByte_cwidx (b : Group) (s : State) : (outByte b s).cwidx = s.cwidx := rfl
@[simp] theorem outByte_obidx (b : Group) (s : State) : (outByte b s).obidx = s.obidx := rfl
@[simp] theorem outByte_hostIn (b : Group) (s : State) : (outByte b s).hostIn = s.hostIn := rfl
@[simp] theorem outByte_hrdata (b : Group) (s : State) : (outByte b s).hrdata = s.hrdata := rfl

@[simp] theorem writeVidx_pbuf (i : BitVec 4) (s : State) : (writeVidx i s).pbuf = s.pbuf := rfl
@[simp] theorem writeVidx_eci (i : BitVec 4) (s : State) : (writeVidx i s).eci = s.eci := rfl
@[simp] theorem writeVidx_mode (i : BitVec 4) (s : State) : (writeVidx i s).mode = s.mode := rfl
@[simp] theorem writeVidx_cwbuf (i : BitVec 4) (s : State) : (writeVidx i s).cwbuf = s.cwbuf := rfl
@[simp] theorem writeVidx_obuf (i : BitVec 4) (s : State) : (writeVidx i s).obuf = s.obuf := rfl
@[simp] theorem writeVidx_vidx (i : BitVec 4) (s : State) : (writeVidx i s).vidx = i := rfl
@[simp] theorem writeVidx_status (i : BitVec 4) (s : State) : (writeVidx i s).status = s.status := rfl
@[simp] theorem writeVidx_finfo (i : BitVec 4) (s : State) : (writeVidx i s).finfo = s.finfo := rfl
@[simp] theorem writeVidx_cwidx (i : BitVec 4) (s : State) : (writeVidx i s).cwidx = s.cwidx := rfl
@[simp] theorem writeVidx_obidx (i : BitVec 4) (s : State) : (writeVidx i s).obidx = s.obidx := rfl
@[simp] theorem writeVidx_hostIn (i : BitVec 4) (s : State) : (writeVidx i s).hostIn = s.hostIn := rfl
@[simp] theorem writeVidx_hrdata (i : BitVec 4) (s : State) : (writeVidx i s).hrdata = s.hrdata := rfl

@[simp] theorem writeCwidx_pbuf (n : BufIdx) (s : State) : (writeCwidx n s).pbuf = s.pbuf := rfl
@[simp] theorem writeCwidx_eci (n : BufIdx) (s : State) : (writeCwidx n s).eci = s.eci := rfl
@[simp] theorem writeCwidx_mode (n : BufIdx) (s : State) : (writeCwidx n s).mode = s.mode := rfl
@[simp] theorem writeCwidx_cwbuf (n : BufIdx) (s : State) : (writeCwidx n s).cwbuf = s.cwbuf := rfl
@[simp] theorem writeCwidx_obuf (n : BufIdx) (s : State) : (writeCwidx n s).obuf = s.obuf := rfl
@[simp] theorem writeCwidx_vidx (n : BufIdx) (s : State) : (writeCwidx n s).vidx = s.vidx := rfl
@[simp] theorem writeCwidx_status (n : BufIdx) (s : State) : (writeCwidx n s).status = s.status := rfl
@[simp] theorem writeCwidx_finfo (n : BufIdx) (s : State) : (writeCwidx n s).finfo = s.finfo := rfl
@[simp] theorem writeCwidx_cwidx (n : BufIdx) (s : State) : (writeCwidx n s).cwidx = n := rfl
@[simp] theorem writeCwidx_obidx (n : BufIdx) (s : State) : (writeCwidx n s).obidx = s.obidx := rfl
@[simp] theorem writeCwidx_hostIn (n : BufIdx) (s : State) : (writeCwidx n s).hostIn = s.hostIn := rfl
@[simp] theorem writeCwidx_hrdata (n : BufIdx) (s : State) : (writeCwidx n s).hrdata = s.hrdata := rfl

@[simp] theorem writeObidx_pbuf (n : BufIdx) (s : State) : (writeObidx n s).pbuf = s.pbuf := rfl
@[simp] theorem writeObidx_eci (n : BufIdx) (s : State) : (writeObidx n s).eci = s.eci := rfl
@[simp] theorem writeObidx_mode (n : BufIdx) (s : State) : (writeObidx n s).mode = s.mode := rfl
@[simp] theorem writeObidx_cwbuf (n : BufIdx) (s : State) : (writeObidx n s).cwbuf = s.cwbuf := rfl
@[simp] theorem writeObidx_obuf (n : BufIdx) (s : State) : (writeObidx n s).obuf = s.obuf := rfl
@[simp] theorem writeObidx_vidx (n : BufIdx) (s : State) : (writeObidx n s).vidx = s.vidx := rfl
@[simp] theorem writeObidx_status (n : BufIdx) (s : State) : (writeObidx n s).status = s.status := rfl
@[simp] theorem writeObidx_finfo (n : BufIdx) (s : State) : (writeObidx n s).finfo = s.finfo := rfl
@[simp] theorem writeObidx_cwidx (n : BufIdx) (s : State) : (writeObidx n s).cwidx = s.cwidx := rfl
@[simp] theorem writeObidx_obidx (n : BufIdx) (s : State) : (writeObidx n s).obidx = n := rfl
@[simp] theorem writeObidx_hostIn (n : BufIdx) (s : State) : (writeObidx n s).hostIn = s.hostIn := rfl
@[simp] theorem writeObidx_hrdata (n : BufIdx) (s : State) : (writeObidx n s).hrdata = s.hrdata := rfl

@[simp] theorem reply_pbuf (v : Word) (s : State) : (reply v s).pbuf = s.pbuf := rfl
@[simp] theorem reply_eci (v : Word) (s : State) : (reply v s).eci = s.eci := rfl
@[simp] theorem reply_mode (v : Word) (s : State) : (reply v s).mode = s.mode := rfl
@[simp] theorem reply_cwbuf (v : Word) (s : State) : (reply v s).cwbuf = s.cwbuf := rfl
@[simp] theorem reply_obuf (v : Word) (s : State) : (reply v s).obuf = s.obuf := rfl
@[simp] theorem reply_vidx (v : Word) (s : State) : (reply v s).vidx = s.vidx := rfl
@[simp] theorem reply_status (v : Word) (s : State) : (reply v s).status = s.status := rfl
@[simp] theorem reply_finfo (v : Word) (s : State) : (reply v s).finfo = s.finfo := rfl
@[simp] theorem reply_cwidx (v : Word) (s : State) : (reply v s).cwidx = s.cwidx := rfl
@[simp] theorem reply_obidx (v : Word) (s : State) : (reply v s).obidx = s.obidx := rfl
@[simp] theorem reply_hostIn (v : Word) (s : State) : (reply v s).hostIn = s.hostIn := rfl
@[simp] theorem reply_hrdata (v : Word) (s : State) : (reply v s).hrdata = v := rfl

@[simp] theorem enterFault_pbuf (c : Cause) (info : Word) (s : State) : (enterFault c info s).pbuf = s.pbuf := rfl
@[simp] theorem enterFault_eci (c : Cause) (info : Word) (s : State) : (enterFault c info s).eci = s.eci := rfl
@[simp] theorem enterFault_mode (c : Cause) (info : Word) (s : State) : (enterFault c info s).mode = s.mode := rfl
@[simp] theorem enterFault_cwbuf (c : Cause) (info : Word) (s : State) : (enterFault c info s).cwbuf = if c = .map then [] else s.cwbuf := rfl
@[simp] theorem enterFault_obuf (c : Cause) (info : Word) (s : State) : (enterFault c info s).obuf = if c = .ovf then [] else s.obuf := rfl
@[simp] theorem enterFault_vidx (c : Cause) (info : Word) (s : State) : (enterFault c info s).vidx = s.vidx := rfl
@[simp] theorem enterFault_status (c : Cause) (info : Word) (s : State) : (enterFault c info s).status = { halt := true, cause := some c } := rfl
@[simp] theorem enterFault_finfo (c : Cause) (info : Word) (s : State) : (enterFault c info s).finfo = info := rfl
@[simp] theorem enterFault_cwidx (c : Cause) (info : Word) (s : State) : (enterFault c info s).cwidx = s.cwidx := rfl
@[simp] theorem enterFault_obidx (c : Cause) (info : Word) (s : State) : (enterFault c info s).obidx = s.obidx := rfl
@[simp] theorem enterFault_hostIn (c : Cause) (info : Word) (s : State) : (enterFault c info s).hostIn = s.hostIn := rfl
@[simp] theorem enterFault_hrdata (c : Cause) (info : Word) (s : State) : (enterFault c info s).hrdata = s.hrdata := rfl

@[simp] theorem resetMachine_pbuf (s : State) : (resetMachine s).pbuf = [] := rfl
@[simp] theorem resetMachine_eci (s : State) : (resetMachine s).eci = { v := false, val := 0#24 } := rfl
@[simp] theorem resetMachine_mode (s : State) : (resetMachine s).mode = none := rfl
@[simp] theorem resetMachine_cwbuf (s : State) : (resetMachine s).cwbuf = [] := rfl
@[simp] theorem resetMachine_obuf (s : State) : (resetMachine s).obuf = [] := rfl
@[simp] theorem resetMachine_vidx (s : State) : (resetMachine s).vidx = 0#4 := rfl
@[simp] theorem resetMachine_status (s : State) : (resetMachine s).status = { halt := false, cause := none } := rfl
@[simp] theorem resetMachine_finfo (s : State) : (resetMachine s).finfo = 0#32 := rfl
@[simp] theorem resetMachine_cwidx (s : State) : (resetMachine s).cwidx = 0#18 := rfl
@[simp] theorem resetMachine_obidx (s : State) : (resetMachine s).obidx = 0#18 := rfl
@[simp] theorem resetMachine_hostIn (s : State) : (resetMachine s).hostIn = s.hostIn := rfl
@[simp] theorem resetMachine_hrdata (s : State) : (resetMachine s).hrdata = s.hrdata := rfl

@[simp] theorem placeEvent_pbuf (e : HostEvent) (s : State) : (placeEvent e s).pbuf = s.pbuf := rfl
@[simp] theorem placeEvent_eci (e : HostEvent) (s : State) : (placeEvent e s).eci = s.eci := rfl
@[simp] theorem placeEvent_mode (e : HostEvent) (s : State) : (placeEvent e s).mode = s.mode := rfl
@[simp] theorem placeEvent_cwbuf (e : HostEvent) (s : State) : (placeEvent e s).cwbuf = s.cwbuf := rfl
@[simp] theorem placeEvent_obuf (e : HostEvent) (s : State) : (placeEvent e s).obuf = s.obuf := rfl
@[simp] theorem placeEvent_vidx (e : HostEvent) (s : State) : (placeEvent e s).vidx = s.vidx := rfl
@[simp] theorem placeEvent_status (e : HostEvent) (s : State) : (placeEvent e s).status = s.status := rfl
@[simp] theorem placeEvent_finfo (e : HostEvent) (s : State) : (placeEvent e s).finfo = s.finfo := rfl
@[simp] theorem placeEvent_cwidx (e : HostEvent) (s : State) : (placeEvent e s).cwidx = s.cwidx := rfl
@[simp] theorem placeEvent_obidx (e : HostEvent) (s : State) : (placeEvent e s).obidx = s.obidx := rfl
@[simp] theorem placeEvent_hostIn (e : HostEvent) (s : State) : (placeEvent e s).hostIn = e :: s.hostIn := rfl
@[simp] theorem placeEvent_hrdata (e : HostEvent) (s : State) : (placeEvent e s).hrdata = s.hrdata := rfl

@[simp] theorem reset_pbuf : State.reset.pbuf = [] := rfl
@[simp] theorem reset_eci : State.reset.eci = { v := false, val := 0#24 } := rfl
@[simp] theorem reset_mode : State.reset.mode = none := rfl
@[simp] theorem reset_cwbuf : State.reset.cwbuf = [] := rfl
@[simp] theorem reset_obuf : State.reset.obuf = [] := rfl
@[simp] theorem reset_vidx : State.reset.vidx = 0#4 := rfl
@[simp] theorem reset_status : State.reset.status = { halt := false, cause := none } := rfl
@[simp] theorem reset_finfo : State.reset.finfo = 0#32 := rfl
@[simp] theorem reset_cwidx : State.reset.cwidx = 0#18 := rfl
@[simp] theorem reset_obidx : State.reset.obidx = 0#18 := rfl
@[simp] theorem reset_hostIn : State.reset.hostIn = [] := rfl
@[simp] theorem reset_hrdata : State.reset.hrdata = 0#32 := rfl

end Sys2Proof.Machine
end

