-- ==== Sys2Proof/Laws/Ops.lean ====
section
/-! SUPPORT. One lemma per shared operation of the model: everything it can answer, and that the buffers keep their
canonical form. -/

namespace Sys2Proof.Machine

/-! ### How a transaction ends -/

@[simp] theorem conclude_ok (s : State) : conclude (.ok s) = .next s := rfl

@[simp] theorem conclude_error (s : State) : conclude (.error s) = .next s := rfl

/-- A command's body always completes the transaction. -/
theorem conclude_next (r : Except State State) : ∃ t, conclude r = .next t := by
  cases r <;> exact ⟨_, rfl⟩

/-- `conclude` answers the state the body ended in, with or without a fault. -/
theorem conclude_eq_next {r : Except State State} {t : State} (h : conclude r = .next t) :
    r = .ok t ∨ r = .error t := by
  cases r <;> simp_all

theorem whenRunning_running {s : State} (h : s.Running) (r : Result) : whenRunning s r = r := by
  simp [whenRunning, h]

theorem whenRunning_halted {s : State} (h : s.Halted) (r : Result) : whenRunning s r = .next s := by
  simp [whenRunning, h]

/-- What a command that is ignored while halted can answer. -/
theorem whenRunning_cases {s : State} {r : Result} {t : State} (h : whenRunning s r = .next t) :
    (s.Halted ∧ t = s) ∨ (s.Running ∧ r = .next t) := by
  by_cases hs : s.status.halt = true
  · rw [whenRunning_halted hs] at h
    cases h
    exact .inl ⟨hs, rfl⟩
  · have hr : s.Running := by simpa using hs
    rw [whenRunning_running hr] at h
    exact .inr ⟨hr, h⟩

@[simp] theorem raise_eq (c : Cause) (info : Word) (s : State) : raise c info s = .error (enterFault c info s) := rfl

/-! ### The host port -/

theorem takeEvent_nil {s : State} (h : s.hostIn = []) : takeEvent s = none := by
  simp [takeEvent, h]

theorem takeEvent_cons {s : State} {e : HostEvent} {rest : List HostEvent} (h : s.hostIn = e :: rest) :
    takeEvent s = some (e, { s with hostIn := rest }) := by
  simp [takeEvent, h]

/-- What a step can do: nothing, serve a transaction, or reset. -/
theorem step_cases {s t : State} (h : step s = .next t) :
    (s.hostIn = [] ∧ t = s) ∨
      (∃ x rest, s.hostIn = .txn x :: rest ∧ serveTxn x { s with hostIn := rest } = .next t) ∨
      ∃ rest, s.hostIn = .hwReset :: rest ∧ t = resetMachine { s with hostIn := rest } := by
  rcases hh : s.hostIn with _ | ⟨e, rest⟩
  · rw [step, takeEvent_nil hh] at h
    cases h
    exact .inl ⟨rfl, rfl⟩
  · rw [step, takeEvent_cons hh] at h
    cases e with
    | txn x => exact .inr (.inl ⟨x, rest, rfl, h⟩)
    | hwReset =>
      refine .inr (.inr ⟨rest, rfl, ?_⟩)
      simp only [execHwReset, Host.Outcome.next.injEq] at h
      exact h.symm

/-! ### Raising a fault -/

/-- `raise Fault` leaves the payload, the designator, the mode, `VIDX`, the index registers and the host port. -/
theorem enterFault_frame (c : Cause) (info : Word) (s : State) :
    enterFault c info s =
      { s with
        status := { halt := true, cause := some c }
        finfo := info
        cwbuf := if c = .map then [] else s.cwbuf
        obuf := if c = .ovf then [] else s.obuf } := rfl

/-! ### The encoder's shared operations change the codeword buffer only, by appending -/

/-- `t` is `s` with codewords appended to `CWBUF`. -/
abbrev Appends (s t : State) : Prop := ∃ added, t = { s with cwbuf := s.cwbuf ++ added }

theorem Appends.rfl' (s : State) : Appends s s := ⟨[], by simp⟩

theorem Appends.trans' {s t u : State} (h : Appends s t) (h' : Appends t u) : Appends s u := by
  obtain ⟨a, rfl⟩ := h
  obtain ⟨b, rfl⟩ := h'
  exact ⟨a ++ b, by simp⟩

theorem emit_appends (v : Nat) (s : State) : Appends s (emit v s) := ⟨_, rfl⟩

theorem emitCount_appends (m : Mode) (n : Nat) (s : State) : Appends s (emitCount m n s) := by
  cases m
  case eci => exact .rfl' s
  case kanji => exact (emit_appends _ _).trans' (emit_appends _ _)
  all_goals exact emit_appends _ _

theorem emitDesignator_appends (s : State) : Appends s (emitDesignator s) := by
  rcases h : s.designator with _ | d
  · simpa [emitDesignator, h] using Appends.rfl' s
  · simpa [emitDesignator, h] using (emit_appends _ _).trans' (emit_appends _ _)

/-- `PAY` appends, or raises MAP with the element's index. -/
theorem pay_cases (p : Config.Params) (m : Mode) (i : Nat) (c : Elem) (s : State) :
    (∃ t, pay p m i c s = .ok t ∧ Appends s t) ∨
      pay p m i c s = .error (enterFault .map (BitVec.ofNat 32 i) s) := by
  cases m <;> simp only [pay, raise_eq]
  case numeric =>
    split
    · exact .inl ⟨_, rfl, emit_appends _ _⟩
    · exact .inl ⟨_, rfl, .rfl' s⟩
  case alphanumeric =>
    split
    · exact .inl ⟨_, rfl, emit_appends _ _⟩
    · split
      · exact .inl ⟨_, rfl, emit_appends _ _⟩
      · split
        · exact .inl ⟨_, rfl, emit_appends _ _⟩
        · exact .inl ⟨_, rfl, .rfl' s⟩
  case byte =>
    split
    · exact .inl ⟨_, rfl, emit_appends _ _⟩
    · exact .inr rfl
  case kanji =>
    split
    · exact .inl ⟨_, rfl, (emit_appends _ _).trans' (emit_appends _ _)⟩
    · exact .inr rfl
  case eci => exact .inl ⟨_, rfl, .rfl' s⟩

/-- The payload loop appends, or stops with MAP at the index of some element. -/
theorem payLoop_cases (p : Config.Params) (m : Mode) (i : Nat) (cs : List Elem) (s : State) :
    (∃ t, payLoop p m i cs s = .ok t ∧ Appends s t) ∨
      ∃ k u, k < cs.length ∧ Appends s u ∧
        payLoop p m i cs s = .error (enterFault .map (BitVec.ofNat 32 (i + k)) u) := by
  induction cs generalizing i s with
  | nil => exact .inl ⟨s, rfl, .rfl' s⟩
  | cons c cs ih =>
    simp only [payLoop]
    rcases pay_cases p m i c s with ⟨t, ht, ha⟩ | he
    · rw [ht]
      rcases ih (i + 1) t with ⟨u, hu, hb⟩ | ⟨k, u, hk, hb, hu⟩
      · exact .inl ⟨u, hu, ha.trans' hb⟩
      · refine .inr ⟨k + 1, u, by simpa using hk, ha.trans' hb, ?_⟩
        simpa [Nat.add_assoc, Nat.add_comm 1 k] using hu
    · rw [he]
      exact .inr ⟨0, s, by simp, .rfl' s, rfl⟩

/-- Steps 1 to 3 of an encode replace the codeword sequence and touch nothing else. -/
theorem emitHeader_frame (m : Mode) (s : State) : emitHeader m s = { s with cwbuf := (emitHeader m s).cwbuf } := by
  obtain ⟨a, ha⟩ := (emit_appends m.indicator.toNat (clearCodewords s)).trans'
    ((emitCount_appends m s.pbuf.length _).trans' (emitDesignator_appends _))
  rw [emitHeader, ha]
  rfl

/-- `ENC(m)` replaces the codeword sequence only, or ends in a MAP fault at the index of some element, which leaves the
sequence empty. -/
theorem encodeFrame_cases (p : Config.Params) (m : Mode) (s : State) :
    (∃ cw, encodeFrame p m s = .ok { s with cwbuf := cw }) ∨
      ∃ k, k < s.pbuf.length ∧
        encodeFrame p m s = .error (enterFault .map (BitVec.ofNat 32 k) s) := by
  simp only [encodeFrame]
  rcases payLoop_cases p m 0 s.pbuf (emitHeader m s) with ⟨t, ht, a, ha⟩ | ⟨k, u, hk, ⟨a, ha⟩, hu⟩
  · refine .inl ⟨(emitHeader m s).cwbuf ++ a, ?_⟩
    rw [ht, ha, emitHeader_frame]
  · refine .inr ⟨k, hk, ?_⟩
    rw [hu, ha, emitHeader_frame]
    simp [enterFault]

/-! ### The serializer's loop -/

/-- The loop of `TOBITS` changes the output buffer only, or ends in an OVF fault at the index of some codeword. -/
theorem serializeLoop_cases (j : Nat) (ws : List Codeword) (s : State) :
    (∃ ob, serializeLoop j ws s = .ok { s with obuf := ob }) ∨
      ∃ k, k < ws.length ∧
        serializeLoop j ws s = .error (enterFault .ovf (BitVec.ofNat 32 (j + k)) s) := by
  induction ws generalizing j s with
  | nil => exact .inl ⟨s.obuf, rfl⟩
  | cons w ws ih =>
    simp only [serializeLoop, raise_eq]
    split
    · exact .inr ⟨0, by simp, rfl⟩
    · rcases ih (j + 1) (outByte (w.setWidth 8) s) with ⟨ob, h⟩ | ⟨k, hk, h⟩
      · exact .inl ⟨ob, h⟩
      · refine .inr ⟨k + 1, by simpa using hk, ?_⟩
        rw [h]
        simp [enterFault, outByte, Nat.add_assoc, Nat.add_comm 1 k]

/-- The body of `TOBITS` replaces the output buffer only, or ends in an OVF fault, which leaves it empty. -/
theorem serialize_cases (s : State) :
    (∃ ob, serialize s = .ok { s with obuf := ob }) ∨
      ∃ k, k < s.cwbuf.length ∧ serialize s = .error (enterFault .ovf (BitVec.ofNat 32 k) s) := by
  simp only [serialize]
  rcases serializeLoop_cases 0 s.cwbuf (clearGroups s) with ⟨ob, h⟩ | ⟨k, hk, h⟩
  · exact .inl ⟨ob, h⟩
  · refine .inr ⟨k, hk, ?_⟩
    rw [h]
    simp [enterFault, clearGroups]

/-! ### The canonical form of the buffers -/

theorem appendElem_wf {s : State} (h : Memory.wf s) (hlt : s.pbuf.length < Config.maxLen) (e : Elem) :
    Memory.wf (appendElem e s) := by
  obtain ⟨-, hc, ho⟩ := h
  exact ⟨by simp only [appendElem_pbuf, List.length_append, List.length_singleton]; omega, hc, ho⟩

theorem clearPayload_wf {s : State} (h : Memory.wf s) : Memory.wf (clearPayload s) := ⟨by simp, h.2⟩

theorem clearCodewords_wf {s : State} (h : Memory.wf s) : Memory.wf (clearCodewords s) := ⟨h.1, by simp, h.2.2⟩

theorem emit_wf {s : State} (h : Memory.wf s) (hlt : s.cwbuf.length < Config.cwDepth) (v : Nat) :
    Memory.wf (emit v s) := by
  obtain ⟨hp, -, ho⟩ := h
  exact ⟨hp, by simp only [emit_cwbuf, List.length_append, List.length_singleton]; omega, ho⟩

theorem clearGroups_wf {s : State} (h : Memory.wf s) : Memory.wf (clearGroups s) := ⟨h.1, h.2.1, by simp⟩

theorem outByte_wf {s : State} (h : Memory.wf s) (hlt : s.obuf.length < Config.cwDepth) (b : Group) :
    Memory.wf (outByte b s) := by
  obtain ⟨hp, hc, -⟩ := h
  exact ⟨hp, hc, by simp only [outByte_obuf, List.length_append, List.length_singleton]; omega⟩

theorem enterFault_wf {s : State} (h : Memory.wf s) (c : Cause) (info : Word) : Memory.wf (enterFault c info s) := by
  obtain ⟨hp, hc, ho⟩ := h
  refine ⟨hp, ?_, ?_⟩
  · rw [enterFault_cwbuf]; split <;> simp_all
  · rw [enterFault_obuf]; split <;> simp_all

theorem resetMachine_wf (s : State) : Memory.wf (resetMachine s) := ⟨by simp, by simp, by simp⟩

theorem reset_wf : Memory.wf State.reset := by decide

end Sys2Proof.Machine
end

