-- ==== Sys2Proof/Laws/PerInstr.lean ====
section
/-! SUPPORT. One lemma per instruction: its transaction goes to the register the opcode table's "target" names, with the
ignored bits of the written word zero (20_memory.md R66, 44_control_and_host.md R190, R194). -/

namespace Sys2Proof.Laws.EncodedTarget

/-- Whether a transaction reads (`true`) or writes, and which register it reaches. -/
def reaches : HostTxn → Bool × RegIdx
  | .read idx => (true, idx)
  | .write idx _ => (false, idx)

/-- The "target" column of spec/opcode_table.json. -/
def target : Instr → Bool × Reg
  | .selmode | .encS | .encN | .encA | .encB | .encE | .encK | .tobits | .estver | .pclr | .srst => (false, .cmd)
  | .push _ => (false, .pdata)
  | .seteci _ => (false, .eci)
  | .clreci _ => (false, .eci)
  | .setcwidx _ => (false, .cwidx)
  | .setobidx _ => (false, .obidx)
  | .rdCmd => (true, .cmd)
  | .rdStatus => (true, .status)
  | .rdFinfo => (true, .finfo)
  | .rdPdata => (true, .pdata)
  | .rdPlen => (true, .plen)
  | .rdEci => (true, .eci)
  | .rdMode => (true, .mode)
  | .rdCwn => (true, .cwn)
  | .rdCwidx => (true, .cwidx)
  | .rdCwdata => (true, .cwdata)
  | .rdBitn => (true, .bitn)
  | .rdObidx => (true, .obidx)
  | .rdObdata => (true, .obdata)
  | .rdVer => (true, .ver)
  | .rdCfg => (true, .cfg)
  | .rdId => (true, .id)

/-- The transaction reaches its target, and its word has no ignored bit set. -/
def Statement (i : Instr) : Prop :=
  reaches (encode i) = ((target i).1, (target i).2.idx) ∧ (encode i).clearIgnored = encode i

theorem selmode : Statement .selmode := ⟨rfl, rfl⟩
theorem encS : Statement .encS := ⟨rfl, rfl⟩
theorem encN : Statement .encN := ⟨rfl, rfl⟩
theorem encA : Statement .encA := ⟨rfl, rfl⟩
theorem encB : Statement .encB := ⟨rfl, rfl⟩
theorem encE : Statement .encE := ⟨rfl, rfl⟩
theorem encK : Statement .encK := ⟨rfl, rfl⟩
theorem tobits : Statement .tobits := ⟨rfl, rfl⟩
theorem estver : Statement .estver := ⟨rfl, rfl⟩
theorem pclr : Statement .pclr := ⟨rfl, rfl⟩
theorem srst : Statement .srst := ⟨rfl, rfl⟩

/-- A field widened with zeros loses nothing to the mask of its own width. -/
theorem setWidth_and_mask {w : Nat} (x : BitVec w) (mask : Word) (h : mask.toNat = 2 ^ w - 1) (hw : w ≤ 32) :
    x.setWidth 32 &&& mask = x.setWidth 32 := by
  apply BitVec.eq_of_toNat_eq
  have hx := x.isLt
  have hp : (2 : Nat) ^ w ≤ 2 ^ 32 := Nat.pow_le_pow_right (by decide) hw
  rw [BitVec.toNat_and, h, Nat.and_two_pow_sub_one_eq_mod, BitVec.toNat_setWidth]
  rw [Nat.mod_eq_of_lt (a := x.toNat) (b := 2 ^ 32) (by omega), Nat.mod_eq_of_lt hx]

theorem push (e : Elem) : Statement (.push e) :=
  ⟨rfl, congrArg (HostTxn.write 0x3#4) (setWidth_and_mask e 0x001FFFFF#32 rfl (by decide))⟩

theorem eciWord_and_mask (v : Bool) (val : Desig) : eciWord v val &&& 0x80FFFFFF#32 = eciWord v val := by
  have h : (0x80FFFFFF#32 : Word) = BitVec.ofBool true ++ 0#7 ++ 0xFFFFFF#24 := by decide
  rw [h, eciWord, BitVec.and_append, BitVec.and_append]
  have hv : BitVec.ofBool v &&& BitVec.ofBool true = BitVec.ofBool v := by cases v <;> rfl
  have hval : val &&& 0xFFFFFF#24 = val := BitVec.and_allOnes
  rw [hv, hval]
  rfl

theorem seteci (val : Desig) : Statement (.seteci val) :=
  ⟨rfl, congrArg (HostTxn.write 0x5#4) (eciWord_and_mask true val)⟩

theorem clreci (val : Desig) : Statement (.clreci val) :=
  ⟨rfl, congrArg (HostTxn.write 0x5#4) (eciWord_and_mask false val)⟩

theorem setcwidx (n : BufIdx) : Statement (.setcwidx n) :=
  ⟨rfl, congrArg (HostTxn.write 0x8#4) (setWidth_and_mask n 0x0003FFFF#32 rfl (by decide))⟩

theorem setobidx (n : BufIdx) : Statement (.setobidx n) :=
  ⟨rfl, congrArg (HostTxn.write 0xB#4) (setWidth_and_mask n 0x0003FFFF#32 rfl (by decide))⟩

theorem rdCmd : Statement .rdCmd := ⟨rfl, rfl⟩
theorem rdStatus : Statement .rdStatus := ⟨rfl, rfl⟩
theorem rdFinfo : Statement .rdFinfo := ⟨rfl, rfl⟩
theorem rdPdata : Statement .rdPdata := ⟨rfl, rfl⟩
theorem rdPlen : Statement .rdPlen := ⟨rfl, rfl⟩
theorem rdEci : Statement .rdEci := ⟨rfl, rfl⟩
theorem rdMode : Statement .rdMode := ⟨rfl, rfl⟩
theorem rdCwn : Statement .rdCwn := ⟨rfl, rfl⟩
theorem rdCwidx : Statement .rdCwidx := ⟨rfl, rfl⟩
theorem rdCwdata : Statement .rdCwdata := ⟨rfl, rfl⟩
theorem rdBitn : Statement .rdBitn := ⟨rfl, rfl⟩
theorem rdObidx : Statement .rdObidx := ⟨rfl, rfl⟩
theorem rdObdata : Statement .rdObdata := ⟨rfl, rfl⟩
theorem rdVer : Statement .rdVer := ⟨rfl, rfl⟩
theorem rdCfg : Statement .rdCfg := ⟨rfl, rfl⟩
theorem rdId : Statement .rdId := ⟨rfl, rfl⟩

end Sys2Proof.Laws.EncodedTarget
end

