-- ==== Sys2Proof/Tests/Slice0.lean ====
section
/-! SUPPORT. Tests: checks refuse ill-formed terms, every constructor's decoding by a word written out from the spec, the
spec's own vectors (95_test_vectors.md), and a state that meets the hypotheses of each obligation. Expected values are
the spec's. -/

namespace Sys2Proof.Tests

open Machine

/-! ### Ill-formed terms are refused -/

theorem wf_command_refuses_push : Stmt.wf (.command (.push 0#21)) = false := by decide
theorem wf_push_refuses_wide_number : Stmt.wf (.push (2 ^ 32)) = false := by decide
theorem wf_seteci_refuses_wide_designator : Stmt.wf (.seteci (2 ^ 24)) = false := by decide
theorem wf_setcwidx_refuses_wide_number : Stmt.wf (.setcwidx (2 ^ 32)) = false := by decide
theorem wf_setobidx_refuses_wide_number : Stmt.wf (.setobidx (2 ^ 32)) = false := by decide
theorem wf_rdcw_refuses_wide_number : Stmt.wf (.rdcw (2 ^ 32)) = false := by decide
theorem wf_rdob_refuses_wide_number : Stmt.wf (.rdob (2 ^ 32)) = false := by decide
theorem wf_accepts : Stmt.wf (.seteci 0xFFFFFF) = true ∧ Stmt.wf (.command .srst) = true := by decide

/-- The reference tables of 95_test_vectors.md (not normative); the inner version bounds are arbitrary. -/
def reference : Config.Params :=
  { kanjiSet := [⟨0x3040, 0x309F⟩, ⟨0x30A0, 0x30FF⟩, ⟨0x4E00, 0x9FFF⟩]
    kanjiLead := fun c =>
      if c.toNat = 0x65E5 then some 147#8
      else if c.toNat = 0x672C then some 150#8
      else if c.toNat = 0x3042 then some 130#8
      else if c.toNat = 0x30A2 then some 131#8
      else none
    emptyMode := .byte
    vtMid := [53, 78, 106, 134, 154, 192, 230, 271, 321, 367, 425] }

theorem reference_admissible : reference.admissible = true := by decide
theorem ascii_kanji_refused : Config.Params.admissible { reference with kanjiSet := [⟨0x7F, 0x90⟩] } = false := by decide
theorem surrogate_kanji_refused :
    Config.Params.admissible { reference with kanjiSet := [⟨0x4E00, 0xD800⟩] } = false := by decide
theorem too_high_kanji_refused :
    Config.Params.admissible { reference with kanjiSet := [⟨0xE000, 0x110000⟩] } = false := by decide
theorem short_table_refused : Config.Params.admissible { reference with vtMid := [53, 78] } = false := by decide
theorem falling_table_refused :
    Config.Params.admissible { reference with vtMid := [53, 78, 106, 134, 154, 192, 230, 271, 321, 321, 425] } = false := by
  decide
theorem low_table_refused :
    Config.Params.admissible { reference with vtMid := [32, 78, 106, 134, 154, 192, 230, 271, 321, 367, 425] } = false := by
  decide
theorem high_table_refused :
    Config.Params.admissible { reference with vtMid := [53, 78, 106, 134, 154, 192, 230, 271, 321, 367, 437] } = false := by
  decide

/-! ### Decoding, one word for each constructor -/

theorem decode_selmode : decode (.write 0x0#4 0b00000000000000000000000000010000#32) = .ok .selmode := by decide
theorem decode_encS : decode (.write 0x0#4 0b00000000000000000000000000100000#32) = .ok .encS := by decide
theorem decode_encN : decode (.write 0x0#4 0b00000000000000000000000000100001#32) = .ok .encN := by decide
theorem decode_encA : decode (.write 0x0#4 0b00000000000000000000000000100010#32) = .ok .encA := by decide
theorem decode_encB : decode (.write 0x0#4 0b00000000000000000000000000100100#32) = .ok .encB := by decide
theorem decode_encE : decode (.write 0x0#4 0b00000000000000000000000000100111#32) = .ok .encE := by decide
theorem decode_encK : decode (.write 0x0#4 0b00000000000000000000000000101000#32) = .ok .encK := by decide
theorem decode_tobits : decode (.write 0x0#4 0b00000000000000000000000000110000#32) = .ok .tobits := by decide
theorem decode_estver : decode (.write 0x0#4 0b00000000000000000000000001000000#32) = .ok .estver := by decide
theorem decode_pclr : decode (.write 0x0#4 0b00000000000000000000000001010000#32) = .ok .pclr := by decide
theorem decode_srst : decode (.write 0x0#4 0b00000000000000000000000011110000#32) = .ok .srst := by decide
theorem decode_push : decode (.write 0x3#4 0xFFE00031#32) = .ok (.push 0x31#21) := by decide
theorem decode_seteci : decode (.write 0x5#4 0xFF000003#32) = .ok (.seteci 3#24) := by decide
theorem decode_clreci : decode (.write 0x5#4 0x7F000003#32) = .ok (.clreci 3#24) := by decide
theorem decode_setcwidx : decode (.write 0x8#4 0xFFFC0002#32) = .ok (.setcwidx 2#18) := by decide
theorem decode_setobidx : decode (.write 0xB#4 0x0003FFFF#32) = .ok (.setobidx 0x3FFFF#18) := by decide
theorem decode_reads :
    [0x0#4, 0x1#4, 0x2#4, 0x3#4, 0x4#4, 0x5#4, 0x6#4, 0x7#4].map (fun x => decode (.read x)) =
        [.ok .rdCmd, .ok .rdStatus, .ok .rdFinfo, .ok .rdPdata, .ok .rdPlen, .ok .rdEci, .ok .rdMode, .ok .rdCwn] ∧
      [0x8#4, 0x9#4, 0xA#4, 0xB#4, 0xC#4, 0xD#4, 0xE#4, 0xF#4].map (fun x => decode (.read x)) =
        [.ok .rdCwidx, .ok .rdCwdata, .ok .rdBitn, .ok .rdObidx, .ok .rdObdata, .ok .rdVer, .ok .rdCfg, .ok .rdId] := by
  decide

/-- The illegal words of 95_test_vectors.md 2.5. -/
theorem decode_illegal_words :
    [0x00000000#32, 0x00000023#32, 0x00000011#32, 0x00000110#32].map (fun w => decode (.write 0x0#4 w)) =
      [.error (.illegalCommand 0#32), .error (.illegalCommand 0x23#32), .error (.illegalCommand 0x11#32),
        .error (.illegalCommand 0x110#32)] := by
  decide

theorem decode_read_only_write : decode (.write 0x6#4 4#32) = .error (.readOnlyWrite 0x6#4) := by decide

theorem decode_table_words :
    decodeTableWord 32 0x20 = some .encS ∧ decodeTableWord 32 0x80000000 = some (.seteci 0#24) ∧
      decodeTableWord 32 0 = some (.clreci 0#24) := by
  decide

/-! ### States for the vectors -/

/-- The reset state with a payload. -/
def loaded (payload : List Nat) : State := { State.reset with pbuf := payload.map (BitVec.ofNat 21) }

/-- The same with a supplied designator. -/
def loadedEci (payload : List Nat) (d : Nat) : State :=
  { loaded payload with eci := { v := true, val := BitVec.ofNat 24 d } }

/-- The reset state with a codeword sequence. -/
def coded (cw : List Nat) : State := { State.reset with cwbuf := cw.map (BitVec.ofNat 16) }

/-- Code points of text. -/
def text (cs : List Char) : List Nat := cs.map Char.toNat

/-- The next state's view through `f`. -/
def seen {α : Type} (f : State → α) (r : Result) : Option α :=
  match r with
  | .next s => some (f s)
  | _ => none

/-- The codewords as numbers. -/
def codewords (s : State) : List Nat := s.cwbuf.map BitVec.toNat

/-! ### SELMODE (2.1) -/

theorem selmode_digits : seen State.mode (exec .selmode (loaded (text ['1', '2', '3', '4', '5', '6']))) = some (some .numeric) := by
  decide
theorem selmode_lower_case_is_alphanumeric :
    seen State.mode (exec .selmode (loaded (text ['a', 'b', 'c', 'X', 'Y', 'Z', '0', '9']))) = some (some .alphanumeric) := by
  decide
theorem select_space_is_byte : selectMode reference ((text ['1', '2', ' ', '3']).map (BitVec.ofNat 21)) = .byte := by decide
theorem select_kanji : selectMode reference [0x65E5#21, 0x672C#21] = .kanji := by decide
theorem select_kanji_and_digit_is_byte : selectMode reference [0x65E5#21, 0x672C#21, 0x31#21] = .byte := by decide
theorem select_surrogate_is_eci : selectMode reference [0xD800#21] = .eci ∧ selectMode reference [0x41#21, 0x110000#21] = .eci := by
  decide
theorem select_empty : selectMode reference [] = .byte := by decide

/-! ### ENC (1.1 and 2.2) -/

theorem encN_scenario1 : seen codewords (exec .encN (loaded (text ['1', '2', '3', '4', '5', '6']))) = some [1, 6, 1, 2, 3, 4, 5, 6] := by
  decide
theorem encN_designator : seen codewords (exec .encN (loadedEci (text ['1']) 65536)) = some [1, 1, 256, 0, 1] := by decide
theorem encA_scenario2 :
    seen codewords (exec .encA (loaded (text ['H', 'E', 'L', 'L', 'O', '1', '2', '3']))) =
      some [2, 4, 17, 14, 21, 21, 24, 1, 2, 3] := by
  decide
theorem encA_omits_punctuation : seen codewords (exec .encA (loaded (text ['A', '-', 'z']))) = some [2, 2, 10, 61] := by decide
theorem encB_scenario3 :
    seen codewords (exec .encB (loaded (text ['H', 'e', 'l', 'l', 'o', ',', ' ', 'W', 'o', 'r', 'l', 'd', '!']))) =
      some [4, 13, 72, 101, 108, 108, 111, 44, 32, 87, 111, 114, 108, 100, 33] := by
  decide
theorem encB_fault :
    seen (fun s => (s.statusBits, s.finfo, codewords s)) (exec .encB (loaded [0x61, 0x62, 0x20AC])) =
      some (0x41#32, 2#32, []) := by
  decide
theorem encE_scenario4 : seen codewords (exec .encE (loadedEci (text ['S', 'o', 'm', 'e']) 3)) = some [7, 0, 3] := by decide
theorem encE_large_designator : seen codewords (exec .encE (loadedEci (text ['x']) 0xFFFFFF)) = some [7, 65535, 255] := by decide
theorem encK_empty : seen codewords (exec .encK (loaded [])) = some [8, 0, 0] := by decide
theorem encK_reference :
    (encodeFrame reference .kanji (loaded [0x65E5, 0x672C])).toOption.map codewords = some [8, 0, 2, 0, 147, 0, 150] := by
  decide
theorem encS_stale_mode :
    seen codewords (exec .encS { loaded (text ['1', '2', '3', '4', '5', '6']) with mode := some .alphanumeric }) =
      some [2, 3, 1, 2, 3, 4, 5, 6] := by
  decide
theorem encS_without_mode : seen (fun s => (s.statusBits, s.finfo)) (exec .encS (loaded (text ['1']))) = some (0x21#32, 0#32) := by
  decide

/-! ### TOBITS (2.3) -/

theorem tobits_scenario6 :
    seen State.obuf (exec .tobits (coded [1, 6, 1, 2, 3, 4, 5, 6])) =
      some [0x01#8, 0x06#8, 0x01#8, 0x02#8, 0x03#8, 0x04#8, 0x05#8, 0x06#8] := by
  decide
theorem tobits_bits_msb_first :
    seen State.bits (exec .tobits (coded [7, 128])) =
      some [false, false, false, false, false, true, true, true, true, false, false, false, false, false, false, false] := by
  decide
theorem tobits_overflow :
    seen (fun s => (s.statusBits, s.finfo, s.obuf)) (exec .tobits { coded [1, 1, 256, 0, 1] with obuf := [9#8] }) =
      some (0x51#32, 2#32, []) := by
  decide

/-! ### ESTVER (2.4) -/

theorem estver_rows :
    [0, 1, 8, 17, 18, 32, 33, 437, 438, 480, 481, 603, 131075].map (versionRow reference) =
      [0, 1, 1, 1, 2, 2, 3, 14, 15, 15, 0, 0, 0] := by
  decide
theorem estver_labels :
    label 0#4 = "Unknown QR Code Format" ∧ label 2#4 = "Version 2 (25x25 modules)" ∧
      label 15#4 = "Version 15 (77x77 modules)" := by
  decide

/-! ### Host transactions and control (2.5) -/

theorem pclr_keeps_results :
    seen (fun s => (s.plen, codewords s)) (exec .pclr { loaded (text ['1', '2']) with cwbuf := [7#16] }) = some (0#16, [7]) := by
  decide
theorem srst_while_halted :
    seen (fun s => (s.statusBits, s.plen)) (exec .srst (enterFault .ovf 2#32 (loaded (text ['1'])))) = some (0#32, 0#16) := by
  decide
theorem push_from_reset : seen (fun s => (s.plen, s.pbuf)) (exec (.push 0x31#21) State.reset) = some (1#16, [0x31#21]) := by decide
theorem seteci_reads_back :
    seen (fun s => seen State.hrdata (exec .rdEci s)) (exec (.seteci 3#24) State.reset) = some (some 0x80000003#32) := by
  decide
theorem clreci_stores_field :
    seen (fun s => seen State.hrdata (exec .rdEci s)) (exec (.clreci 3#24) State.reset) = some (some 3#32) := by
  decide
theorem setcwidx_while_halted :
    seen (fun s => seen State.hrdata (exec .rdCwdata s)) (exec (.setcwidx 1#18) (enterFault .ovf 1#32 (coded [7, 256, 0]))) =
      some (some 256#32) := by
  decide
theorem setcwidx_at_count :
    seen (fun s => seen State.hrdata (exec .rdCwdata s)) (exec (.setcwidx 3#18) (coded [7, 0, 3])) = some (some 0#32) := by
  decide
theorem setobidx_reads_group :
    seen (fun s => seen State.hrdata (exec .rdObdata s))
      (exec (.setobidx 0#18) { State.reset with obuf := [7#8, 0#8, 3#8] }) = some (some 7#32) := by
  decide
theorem reads_at_reset :
    [Instr.rdId, .rdCfg, .rdStatus, .rdPlen, .rdMode, .rdCwn, .rdBitn, .rdVer].map (fun i => seen State.hrdata (exec i State.reset)) =
      [some 0x51525331#32, some 0x15101810#32, some 0#32, some 0#32, some 0#32, some 0#32, some 0#32, some 0#32] := by
  decide
theorem reads_of_a_result :
    [Instr.rdCwn, .rdBitn, .rdMode, .rdVer, .rdCmd, .rdPdata].map (fun i =>
        seen State.hrdata (exec i { coded [7, 0, 3] with obuf := [7#8, 0#8, 3#8], mode := some .eci, vidx := 1#4 })) =
      [some 3#32, some 24#32, some 7#32, some 1#32, some 0#32, some 0#32] := by
  decide
theorem reads_of_a_fault :
    [Instr.rdStatus, .rdFinfo].map (fun i => seen State.hrdata (exec i (enterFault .pfull 0x41#32 State.reset))) =
      [some 0x31#32, some 0x41#32] := by
  decide
theorem reads_of_indices :
    [Instr.rdCwidx, .rdObidx].map (fun i => seen State.hrdata (exec i { State.reset with cwidx := 5#18, obidx := 6#18 })) =
      [some 5#32, some 6#32] := by
  decide
theorem illegal_command_faults :
    seen (fun s => (s.statusBits, s.finfo)) (serveTxn (.write 0#4 0x23#32) State.reset) = some (0x11#32, 0x23#32) := by
  decide
theorem read_only_write_does_nothing : seen id (serveTxn (.write 6#4 4#32) State.reset) = some State.reset := by decide
theorem halted_ignores_push :
    seen State.plen (exec (.push 0x31#21) (enterFault .ovf 2#32 (loaded (text ['1'])))) = some 1#16 := by
  decide

/-! ### The step -/

theorem step_fetches_word : seen codewords (step ((loaded (text ['1'])).withFetchWord 32 0x21)) = some [1, 1, 1] := by decide
theorem step_idle : seen id (step State.reset) = some State.reset := by decide
theorem step_hw_reset :
    seen (fun s => (s.plen, s.hostIn)) (step { loaded (text ['1']) with hostIn := [.hwReset, .hwReset] }) =
      some (0#16, [.hwReset]) := by
  decide
theorem expand_pipe :
    expand .pipe = [.write 0#4 0x10#32, .write 0#4 0x20#32, .write 0#4 0x30#32, .write 0#4 0x40#32] := by
  decide
theorem expand_load :
    expand (.load ['1']) = [.write 0#4 0x50#32, .write 3#4 0x31#32] ∧ expand (.seteci 3) = [.write 5#4 0x80000003#32] := by
  decide

/-! ### A state and operands that meet the hypotheses of each obligation -/

/-- The reset state with events pending. -/
def pending (events : List HostEvent) : State := { State.reset with hostIn := events }

/-- The reset state with `n` copies of the digit 1 as its payload. -/
def filled (n : Nat) : State := { State.reset with pbuf := List.replicate n 0x31#21 }

/-- The reset state with `n` codewords of 1. -/
def counted (n : Nat) : State := { State.reset with cwbuf := List.replicate n 1#16 }

/-- The reset state halted by the cause MAP. -/
def halted : State := enterFault .map 2#32 State.reset

theorem halted_of_seen {i : Instr} {s : State} {b : Bool} (h : seen (fun t => t.status.halt) (exec i s) = some b) :
    ∃ t, exec i s = .next t ∧ t.status.halt = b := by
  cases he : exec i s <;> simp_all [seen]

theorem halted_of_seen_step {s : State} {b : Bool} (h : seen (fun t => t.status.halt) (step s) = some b) :
    ∃ t, step s = .next t ∧ t.status.halt = b := by
  cases he : step s <;> simp_all [seen]

theorem all_of {α : Type} {l : List α} {p : α → Prop} [DecidablePred p] (h : l.all (fun a => decide (p a)) = true) :
    ∀ a ∈ l, p a := by
  simpa using h

theorem filled_meets (n : Nat) (h : n ≤ 65535) : (filled n).Running ∧ Memory.wf (filled n) ∧ (filled n).pbuf.length = n := by
  have hl : (filled n).pbuf.length = n := List.length_replicate
  exact ⟨rfl, ⟨hl.trans_le h, Nat.zero_le _, Nat.zero_le _⟩, hl⟩

theorem witness_hardwareResetValues : (pending [.hwReset]).hostIn = .hwReset :: [] := by decide

theorem witness_srstLeavesResetState :
    halted.Halted ∧ Instr.isCommand .encS = true ∧ Instr.encS ≠ .srst ∧
      ∃ t, step { halted with hostIn := [.hwReset] } = .next t ∧ t.Running :=
  ⟨rfl, rfl, by decide, _, rfl, rfl⟩

theorem witness_stepRunsDecodedTransaction :
    (pending [.txn (.write 0#4 0x10#32)]).hostIn = .txn (.write 0#4 0x10#32) :: [] ∧
      decode (.write 0#4 0x10#32) = .ok .selmode := by
  decide

theorem witness_stepOtherwise_idle : (pending []).hostIn = [] := by decide
theorem witness_stepOtherwise_illegal :
    (pending [.txn (.write 0#4 0#32)]).hostIn = .txn (.write 0#4 0#32) :: [] ∧
      decode (.write 0#4 0#32) = .error (.illegalCommand 0#32) ∧
      (pending [.txn (.write 0#4 0#32)]).Running ∧
      ({ halted with hostIn := [.txn (.write 0#4 0#32)] } : State).Halted := by
  decide
theorem witness_stepOtherwise_readOnly :
    (pending [.txn (.write 15#4 1#32)]).hostIn = .txn (.write 15#4 1#32) :: [] ∧
      ((15#4 : RegIdx) = 14#4 ∨ (15#4 : RegIdx) = 15#4) := by
  decide

theorem witness_encodeOfDecode : decode (.write 5#4 0xFF000003#32) = .ok (.seteci 3#24) := by decide

/-- A word for each disjunct: `Z`, `OP`, `M` of a command with no mode, `M` of `ENC`. -/
theorem witness_illegalWordsByField :
    State.reset.Running ∧ (0x110#32 : Word).extractLsb' 8 24 ≠ 0#24 ∧
      (0x60#32 : Word).extractLsb' 4 4 ∉ [1#4, 2#4, 3#4, 4#4, 5#4, 15#4] ∧
      ((0xFF#32 : Word).extractLsb' 4 4 ∈ [1#4, 3#4, 4#4, 5#4, 15#4] ∧ (0xFF#32 : Word).extractLsb' 0 4 ≠ 0#4) ∧
      (0x2F#32 : Word).extractLsb' 4 4 = 2#4 ∧ (0x2F#32 : Word).extractLsb' 0 4 ∉ [0#4, 1#4, 2#4, 4#4, 7#4, 8#4] ∧
      [0x110#32, 0x60#32, 0xFF#32, 0x2F#32].map (fun w => decode (.write 0#4 w)) =
        [.error (.illegalCommand 0x110#32), .error (.illegalCommand 0x60#32), .error (.illegalCommand 0xFF#32),
          .error (.illegalCommand 0x2F#32)] := by
  decide

/-- The four clauses: `SRST`, another word while halted, an illegal word, `ENC.S` with no mode. -/
theorem witness_commandWritePriority :
    (0x23#32 : Word) ≠ 0x000000F0#32 ∧ halted.Halted ∧ State.reset.Running ∧
      (0xF1#32 : Word) ∉ [0x10#32, 0x20#32, 0x21#32, 0x22#32, 0x24#32, 0x27#32, 0x28#32, 0x30#32, 0x40#32, 0x50#32, 0xF0#32] ∧
      State.reset.mode = none := by
  decide

theorem witness_assemblerStatementsDecode :
    Instr.isCommand .encE = true ∧ Stmt.wf (.push 0xFFFFFFFF) = true ∧ Stmt.wf (.seteci 0xFFFFFF) = true ∧
      Stmt.wf (.setcwidx 0xFFFFFFFF) = true ∧ Stmt.wf (.setobidx 0xFFFFFFFF) = true := by
  decide

theorem witness_selmodeWritesSelectedMode : State.reset.Running ∧ halted.Halted := by decide

/-- Edges of the classes: the last digit, the first and last letters, a surrogate's two neighbours, the top value. -/
theorem witness_selmodeCharacterised :
    ∀ c ∈ [0, 0x2F, 0x30, 0x39, 0x3A, 0x41, 0x5A, 0x5B, 0x61, 0x7A, 0x7F, 0x80, 0xD7FF, 0xD800, 0xE000, 0x10FFFF, 0x110000, 0x1FFFFF],
      (loaded [c]).Running ∧ (loaded [c]).pbuf ≠ [] := by
  decide

/-- Equal sets of elements with another order and another multiplicity. -/
theorem witness_selmodeDependsOnElementSet :
    ∃ s' u', (loaded [0x31, 0x41]).Running ∧ (loaded [0x41, 0x31, 0x41]).Running ∧ (loaded [0x31, 0x41]).pbuf ≠ [] ∧
      (loaded [0x41, 0x31, 0x41]).pbuf ≠ [] ∧
      (∀ c, c ∈ (loaded [0x31, 0x41]).pbuf ↔ c ∈ (loaded [0x41, 0x31, 0x41]).pbuf) ∧
      exec .selmode (loaded [0x31, 0x41]) = .next s' ∧ exec .selmode (loaded [0x41, 0x31, 0x41]) = .next u' := by
  refine ⟨_, _, rfl, rfl, by decide, by decide, fun c => ?_, whenRunning_running (s := loaded [0x31, 0x41]) rfl _,
    whenRunning_running (s := loaded [0x41, 0x31, 0x41]) rfl _⟩
  simp only [loaded, List.map_cons, List.map_nil, List.mem_cons, List.not_mem_nil, or_false]
  tauto

/-- Also of `EncAlphanumericResult` and `EncEciResult`: the empty payload, the lengths where a codeword reaches 256, and
the longest payload. -/
theorem witness_encNumericResult : ∀ n ∈ [0, 1, 255, 256, 510, 511, 65535], (filled n).Running ∧ Memory.wf (filled n) := by
  intro n hn
  have h : n ≤ 65535 := by
    simp only [List.mem_cons, List.not_mem_nil, or_false] at hn
    omega
  exact ⟨(filled_meets n h).1, (filled_meets n h).2.1⟩

theorem witness_encByteResult :
    (loaded [0, 0xFF]).Running ∧ Memory.wf (loaded [0, 0xFF]) ∧ (∀ c ∈ (loaded [0, 0xFF]).pbuf, c.toNat ≤ 0xFF) ∧
      (loaded [0xFF, 0x100]).Running ∧ (loaded [0xFF, 0x100]).pbuf[1]? = some 0x100#21 ∧ 0xFF < (0x100#21 : Elem).toNat ∧
      ∀ j d, j < 1 → (loaded [0xFF, 0x100]).pbuf[j]? = some d → d.toNat ≤ 0xFF := by
  refine ⟨by decide, by decide, all_of (by decide), by decide, by decide, by decide, fun j d hj hd => ?_⟩
  obtain rfl : j = 0 := by omega
  rw [← Option.some.inj hd]
  decide

/-- `KANJI_LEAD` is open, so only the empty payload is sure to have it defined everywhere; `EncodeForEveryTable` has a
witness with elements. -/
theorem witness_encKanjiResult :
    State.reset.Running ∧ Memory.wf State.reset ∧ ∀ c ∈ State.reset.pbuf, Config.params.kanjiLead c ≠ none :=
  ⟨rfl, reset_wf, fun _ hc => absurd hc (List.not_mem_nil)⟩

theorem witness_encSelectedFollowsMode :
    ({ State.reset with mode := some .byte } : State).mode = some .byte ∧ State.reset.Running ∧ State.reset.mode = none := by
  decide

/-- Every mode but Kanji with the payload 0xFF, and Kanji with the empty one. -/
theorem witness_encSelectedResult :
    (∀ m ∈ [Mode.numeric, .alphanumeric, .byte, .eci],
        ({ loaded [0xFF] with mode := some m } : State).Running ∧ Memory.wf { loaded [0xFF] with mode := some m } ∧
        ∀ c ∈ (loaded [0xFF]).pbuf, Source.Mappable Config.params m c) ∧
      ({ loaded [] with mode := some .kanji } : State).Running ∧ Memory.wf { loaded [] with mode := some .kanji } ∧
      ∀ c ∈ (loaded []).pbuf, Source.Mappable Config.params .kanji c := by
  refine ⟨fun m hm => ⟨rfl, show Memory.wf (loaded [0xFF]) by decide, fun c hc => ⟨fun _ => ?_, fun hk => ?_⟩⟩, rfl, by decide, fun c hc => ?_⟩
  · simp only [loaded, List.map_cons, List.map_nil, List.mem_cons, List.not_mem_nil, or_false] at hc
    subst hc
    decide
  · subst hk
    simp at hm
  · simp [loaded] at hc

/-- Every mode; Kanji with the empty payload. -/
theorem witness_encodeLength :
    ∀ q ∈ [(Mode.numeric, [0x31, 0x41]), (.alphanumeric, [0x31, 0x2D]), (.byte, [0xFF]), (.kanji, []), (.eci, [0x1FFFFF])],
      (loadedEci q.2 3).Running ∧ Memory.wf (loadedEci q.2 3) ∧
      ∃ t, exec (encodeCommand q.1) (loadedEci q.2 3) = .next t ∧ t.Running := by
  have h : ∀ q ∈ [(Mode.numeric, [0x31, 0x41]), (.alphanumeric, [0x31, 0x2D]), (.byte, [0xFF]), (.kanji, []), (.eci, [0x1FFFFF])],
      (loadedEci q.2 3).Running ∧ Memory.wf (loadedEci q.2 3) ∧
      seen (fun t => t.status.halt) (exec (encodeCommand q.1) (loadedEci q.2 3)) = some false := by
    decide
  exact fun q hq => ⟨(h q hq).1, (h q hq).2.1, halted_of_seen (h q hq).2.2⟩

/-- Both sides of each bound: counts of 255 and 256, of 510 and 511 for two elements a count, and designators of 65535
and 65536. -/
theorem witness_encodeOverflowingCodewords :
    (∀ q ∈ [(Mode.numeric, 255), (.numeric, 256), (.byte, 255), (.byte, 256), (.alphanumeric, 510), (.alphanumeric, 511)],
        ∃ t, exec (encodeCommand q.1) (filled q.2) = .next t ∧ t.Running) ∧
      ∀ d ∈ [65535, 65536], ∃ t, exec .encE (loadedEci [] d) = .next t ∧ t.Running := by
  have h : ∀ q ∈ [(Mode.numeric, 255), (.numeric, 256), (.byte, 255), (.byte, 256), (.alphanumeric, 510), (.alphanumeric, 511)],
      seen (fun t => t.status.halt) (exec (encodeCommand q.1) (filled q.2)) = some false := by
    decide +kernel
  have h' : ∀ d ∈ [65535, 65536], seen (fun t => t.status.halt) (exec .encE (loadedEci [] d)) = some false := by decide
  exact ⟨fun q hq => halted_of_seen (h q hq), fun d hd => halted_of_seen (h' d hd)⟩

/-- Two states with another codeword sequence each; `ENC.S` with one mode in both. -/
theorem witness_encodeIsDeterminedByItsOperands :
    (∃ s' u', exec .encN (loaded [0x31]) = .next s' ∧ exec .encN { loaded [0x31] with cwbuf := [7#16] } = .next u') ∧
      ∃ s' u', exec .encS { loaded [0x31] with mode := some .byte } = .next s' ∧
        exec .encS { loaded [0x31] with mode := some .byte, cwbuf := [7#16] } = .next u' :=
  ⟨⟨_, _, rfl, rfl⟩, _, _, rfl, rfl⟩

/-- A MAP fault and a MODE fault. -/
theorem witness_encodeFaultIsPrecise :
    (loaded [0x100]).Running ∧ (∃ t, exec .encB (loaded [0x100]) = .next t ∧ t.Halted) ∧
      ∃ t, exec .encS (loaded [0x100]) = .next t ∧ t.Halted :=
  ⟨rfl, halted_of_seen (by decide), halted_of_seen (by decide)⟩

theorem witness_encodeForEveryTable :
    Memory.wf (loaded [0x65E5, 0x672C]) ∧ (∀ c ∈ (loaded [0x65E5, 0x672C]).pbuf, Source.Mappable reference .kanji c) ∧
      (loaded [0x65E5, 0x41]).pbuf[1]? = some 0x41#21 ∧ ¬ Source.Mappable reference .kanji 0x41#21 ∧
      ∀ j d, j < 1 → (loaded [0x65E5, 0x41]).pbuf[j]? = some d → Source.Mappable reference .kanji d := by
  refine ⟨by decide, all_of (by decide), by decide, by decide, fun j d hj hd => ?_⟩
  obtain rfl : j = 0 := by omega
  rw [← Option.some.inj hd]
  decide

theorem witness_tobitsResult :
    (coded [0, 255]).Running ∧ (∀ w ∈ (coded [0, 255]).cwbuf, w.toNat < 256) ∧
      (coded [255, 256]).Running ∧ (coded [255, 256]).cwbuf[1]? = some 256#16 ∧ 256 ≤ (256#16 : Codeword).toNat ∧
      ∀ k v, k < 1 → (coded [255, 256]).cwbuf[k]? = some v → v.toNat < 256 := by
  refine ⟨by decide, all_of (by decide), by decide, by decide, by decide, fun k v hk hv => ?_⟩
  obtain rfl : k = 0 := by omega
  rw [← Option.some.inj hv]
  decide

/-- The first and the last bit of the last codeword. -/
theorem witness_bitStringOrder :
    (∃ t, exec .tobits (coded [7, 255]) = .next t ∧ t.Running) ∧ (coded [7, 255]).cwbuf[1]? = some 255#16 ∧
      (0 ≤ 7 ∧ 7 ≤ 7) :=
  ⟨halted_of_seen (by decide), by decide, by decide⟩

theorem witness_bitStringLengthLaw :
    ∃ t u, exec .encN (loaded [0x31]) = .next t ∧ t.Running ∧ exec .tobits t = .next u ∧ u.Running :=
  ⟨_, _, rfl, rfl, rfl, rfl⟩

/-- Also of `EstverWritesRow` and `EstverMonotone`: the counts on both sides of each bound that the spec fixes. -/
theorem witness_estverFixedResults :
    ∀ n ∈ [0, 1, 17, 18, 32, 33, 34, 436, 437, 438, 480, 481, 131075],
      (counted n).Running ∧ (counted n).cwbuf.length = n ∧ ∃ t, exec .estver (counted n) = .next t :=
  fun n _ => ⟨rfl, List.length_replicate, _, whenRunning_running (s := counted n) rfl _⟩

theorem witness_selectAndEstimateForEveryTable : Config.Params.admissible reference = true := by decide

theorem witness_pclrClearsPayload : (loaded [1]).Running ∧ halted.Halted := by decide

/-- An empty buffer, the last free place, and a full buffer. -/
theorem witness_pushAppends :
    (filled 0).pbuf.length < 65535 ∧ (filled 65534).Running ∧ (filled 65534).pbuf.length < 65535 ∧
      (filled 65535).Running ∧ (filled 65535).pbuf.length = 65535 := by
  have h := fun n hn => (filled_meets n hn).2.2
  exact ⟨by decide, rfl, (h 65534 (by decide)).trans_lt (by decide), rfl, h 65535 (by decide)⟩

theorem witness_eciWritesAndReadsBack : State.reset.Running := rfl

/-- An index one below, at and far above a count. -/
theorem witness_indexWrites :
    (coded [7]).cwbuf.length ≤ (1#18 : BufIdx).toNat ∧ ¬ (coded [7]).cwbuf.length ≤ (0#18 : BufIdx).toNat ∧
      State.reset.obuf.length ≤ (0x3FFFF#18 : BufIdx).toNat := by
  decide

/-- An `ECI` write, an index write and a read. -/
theorem witness_idempotentTransactions :
    (∀ i ∈ [Instr.seteci 3#24, .setcwidx 1#18, .rdCwdata], (∀ e, i ≠ .push e) ∧ i.isCommand = false) ∧
      (∃ t, exec (.seteci 3#24) State.reset = .next t) ∧ (∃ t, exec (.setcwidx 1#18) State.reset = .next t) ∧
      ∃ t, exec .rdCwdata State.reset = .next t := by
  refine ⟨fun i hi => ?_, ⟨_, rfl⟩, ⟨_, rfl⟩, _, rfl⟩
  simp only [List.mem_cons, List.not_mem_nil, or_false] at hi
  rcases hi with rfl | rfl | rfl <;> exact ⟨fun e => Instr.noConfusion, rfl⟩

theorem witness_readsReturnTheirRegister : Memory.wf (coded [7]) ∧ Memory.wf State.reset := by decide

/-- The last element and the place after it, in both windows. -/
theorem witness_windowsReadZeroOutside :
    ({ coded [7, 256] with cwidx := 1#18 } : State).cwbuf[1]? = some 256#16 ∧
      ({ coded [7, 256] with cwidx := 2#18 } : State).cwbuf.length ≤ (2#18 : BufIdx).toNat ∧
      ({ State.reset with obuf := [9#8], obidx := 0#18 } : State).obuf[0]? = some 9#8 ∧
      ({ State.reset with obuf := [9#8], obidx := 1#18 } : State).obuf.length ≤ (1#18 : BufIdx).toNat := by
  decide

/-- The invariant of a running state with a sequence of each shape, and of a halted one. -/
theorem witness_statusModeVerReadValues :
    (∀ cw ∈ [[], [1, 0], [2, 1, 36], [4, 1, 0, 3, 255], [7], [7, 0, 3], [8, 0, 1, 0, 147]], (coded cw).Inv) ∧ halted.Inv := by
  decide

theorem witness_haltedIsFrozen : halted.Halted ∧ (0x10#32 : Word) ≠ 0x000000F0#32 ∧ Memory.wf halted := by decide

/-- A halted machine with no event, with `SRST`, with a reset pulse, and with a command that it ignores. -/
theorem witness_firstFaultIsKept :
    ∀ events ∈ [[], [.txn (.write 0#4 0xF0#32)], [.hwReset], [.txn (.write 0#4 0x20#32)]],
      ({ halted with hostIn := events } : State).Halted ∧ ∃ t, step { halted with hostIn := events } = .next t := by
  intro events he
  refine ⟨rfl, ?_⟩
  simp only [List.mem_cons, List.not_mem_nil, or_false] at he
  rcases he with rfl | rfl | rfl | rfl <;> exact ⟨_, rfl⟩

/-- A step that raises each of the causes CMD, MODE, MAP, OVF. -/
theorem witness_faultEntryIsPrecise :
    ∀ s ∈ [pending [.txn (.write 0#4 0#32)], pending [.txn (.write 0#4 0x20#32)],
        { loaded [0x100] with hostIn := [.txn (.write 0#4 0x24#32)] },
        { coded [256] with hostIn := [.txn (.write 0#4 0x30#32)] }],
      s.Running ∧ ∃ t, step s = .next t ∧ t.Halted := by
  have h : ∀ s ∈ [pending [.txn (.write 0#4 0#32)], pending [.txn (.write 0#4 0x20#32)],
        { loaded [0x100] with hostIn := [.txn (.write 0#4 0x24#32)] },
        { coded [256] with hostIn := [.txn (.write 0#4 0x30#32)] }],
      s.Running ∧ seen (fun t => t.status.halt) (step s) = some true := by
    decide
  exact fun s hs => ⟨(h s hs).1, halted_of_seen_step (h s hs).2⟩

/-- The cause PFULL. -/
theorem witness_faultEntryIsPrecise_pfull :
    ({ filled 65535 with hostIn := [.txn (.write 3#4 0x41#32)] } : State).Running ∧
      ∃ t, step { filled 65535 with hostIn := [.txn (.write 3#4 0x41#32)] } = .next t ∧ t.Halted := by
  refine ⟨rfl, enterFault .pfull 0x41#32 (filled 65535), ?_, rfl⟩
  have hl : Config.maxLen ≤ (filled 65535).pbuf.length := Nat.le_of_eq (filled_meets 65535 (by decide)).2.2.symm
  have hx : exec (.push 0x41#21) (filled 65535) = .next (enterFault .pfull 0x41#32 (filled 65535)) := by
    rw [exec, execPush, whenRunning_running rfl, if_pos hl]
    rfl
  exact hx

/-- Each column is written by some instruction. -/
theorem witness_writtenByColumn :
    seen State.pbuf (exec (.push 1#21) State.reset) ≠ some State.reset.pbuf ∧
      seen State.eci (exec (.seteci 0#24) State.reset) ≠ some State.reset.eci ∧
      seen State.mode (exec .selmode (loaded [0x31])) ≠ some (loaded [0x31]).mode ∧
      seen State.cwbuf (exec .encE State.reset) ≠ some State.reset.cwbuf ∧
      seen State.obuf (exec .tobits (coded [7])) ≠ some (coded [7]).obuf ∧
      seen State.vidx (exec .srst { State.reset with vidx := 1#4 }) ≠ some 1#4 ∧
      seen State.status (exec .encS State.reset) ≠ some State.reset.status ∧
      seen State.cwidx (exec (.setcwidx 1#18) State.reset) ≠ some State.reset.cwidx ∧
      seen State.obidx (exec (.setobidx 1#18) State.reset) ≠ some State.reset.obidx ∧
      seen State.hrdata (exec .rdId State.reset) ≠ some State.reset.hrdata := by
  decide

theorem witness_invariantKeptByStep :
    (pending [.txn (.write 0#4 0x27#32)]).Inv ∧ ∃ t, step (pending [.txn (.write 0#4 0x27#32)]) = .next t :=
  ⟨by decide, _, rfl⟩

theorem witness_buffersAreAppendOnly : ∃ t, exec (.push 1#21) (loaded [0x31]) = .next t := ⟨_, rfl⟩

/-- The loops inside an encode and inside `TOBITS`, begun on buffers that hold something. -/
theorem witness_buffersAreAppendOnly_loops :
    (∃ t, payLoop reference .byte 0 [0x31#21, 0xFF#21] (coded [4, 2]) = .ok t) ∧
      ∃ t, serializeLoop 0 [255#16] { State.reset with obuf := [9#8] } = .ok t :=
  ⟨⟨_, rfl⟩, _, rfl⟩

/-- The pipeline that completes: digits, and a designator whose codewords are below 256. -/
theorem witness_pipelineComputesSource_completes :
    (loadedEci [0x31, 0x32] 65535).Running ∧ Memory.wf (loadedEci [0x31, 0x32] 65535) ∧
      Source.selectMode Config.params (loadedEci [0x31, 0x32] 65535).pbuf = .numeric ∧
      (∀ c ∈ (loadedEci [0x31, 0x32] 65535).pbuf, Source.Mappable Config.params .numeric c) ∧
      ∀ w ∈ Source.encode Config.params .numeric (loadedEci [0x31, 0x32] 65535).pbuf (loadedEci [0x31, 0x32] 65535).eci, w < 256 := by
  refine ⟨rfl, by decide, by decide, fun c _ => ⟨fun h => ?_, fun h => ?_⟩, by decide⟩ <;> cases h

/-- The pipeline that halts with OVF: a designator of 65536. -/
theorem witness_pipelineComputesSource_ovf :
    (loadedEci [0x31] 65536).Running ∧ Memory.wf (loadedEci [0x31] 65536) ∧
      Source.selectMode Config.params (loadedEci [0x31] 65536).pbuf = .numeric ∧
      (∀ c ∈ (loadedEci [0x31] 65536).pbuf, Source.Mappable Config.params .numeric c) ∧
      ∃ w ∈ Source.encode Config.params .numeric (loadedEci [0x31] 65536).pbuf (loadedEci [0x31] 65536).eci, 256 ≤ w := by
  refine ⟨rfl, by decide, by decide, fun c _ => ⟨fun h => ?_, fun h => ?_⟩, 256, by decide, by decide⟩ <;> cases h

/-- The pipeline that halts with MAP: with an ASCII digit beside it, the Euro sign makes the mode Byte, and is above
0xFF. -/
theorem witness_pipelineComputesSource_map :
    (loaded [0x20AC, 0x31]).Running ∧ Memory.wf (loaded [0x20AC, 0x31]) ∧
      Source.selectMode Config.params (loaded [0x20AC, 0x31]).pbuf = .byte ∧
      ∃ c ∈ (loaded [0x20AC, 0x31]).pbuf, ¬ Source.Mappable Config.params .byte c := by
  refine ⟨rfl, by decide, ?_, 0x20AC#21, by decide, fun h => absurd (h.1 rfl) (by decide)⟩
  have hk : ¬ ∀ c ∈ (loaded [0x20AC, 0x31]).pbuf, Source.Kanji Config.params c := fun h =>
    absurd (kanji_scalar_nonAscii Config.params_admissible (h 0x31#21 (by decide))).2 (by decide)
  rw [Source.selectMode, if_neg (by decide), if_neg (by decide), if_neg (by decide), if_neg (by simpa using hk),
    if_pos (by decide)]

end Sys2Proof.Tests
end

section
/-! SUPPORT. What the loops of the encoder and of the serializer answer, in the terms of Safety.lean, and from that one
relation, `Effect`, that says everything an instruction can do. -/

namespace Sys2Proof.Machine

/-! ### The element a scan stops at (60_exceptions.md R203) -/

/-- `x` is the first element of `xs` that is not `ok`, and stands at index `k`. -/
structure FirstFailing {α : Type} (ok : α → Prop) (xs : List α) (k : Nat) (x : α) : Prop where
  at_index : xs[k]? = some x
  fails : ¬ ok x
  earlier : ∀ j y, j < k → xs[j]? = some y → ok y

theorem FirstFailing.head {α : Type} {ok : α → Prop} {x : α} (h : ¬ ok x) (xs : List α) :
    FirstFailing ok (x :: xs) 0 x :=
  ⟨rfl, h, fun _ _ hj => absurd hj (Nat.not_lt_zero _)⟩

theorem FirstFailing.tail {α : Type} {ok : α → Prop} {x y : α} {xs : List α} {k : Nat} (hx : ok x)
    (h : FirstFailing ok xs k y) : FirstFailing ok (x :: xs) (k + 1) y := by
  refine ⟨h.at_index, h.fails, fun j z hj hz => ?_⟩
  cases j with
  | zero => simpa [← Option.some.inj hz] using hx
  | succ j => exact h.earlier j z (Nat.lt_of_succ_lt_succ hj) hz

/-! ### The codewords of a segment -/

/-- `emit` of each number in turn. -/
def emitAll (vs : List Nat) (s : State) : State := { s with cwbuf := s.cwbuf ++ vs.map (BitVec.ofNat 16) }

theorem emit_eq_emitAll (v : Nat) (s : State) : emit v s = emitAll [v] s := rfl

@[simp] theorem emitAll_nil (s : State) : emitAll [] s = s := by simp [emitAll]

@[simp] theorem emitAll_emitAll (vs ws : List Nat) (s : State) : emitAll ws (emitAll vs s) = emitAll (vs ++ ws) s := by
  simp [emitAll]

/-- A MAP fault drops what the encode had emitted (R205). -/
@[simp] theorem enterFault_map_emitAll (info : Word) (vs : List Nat) (s : State) :
    enterFault .map info (emitAll vs s) = enterFault .map info s := rfl

theorem emitCount_eq (m : Mode) (n : Nat) (s : State) : emitCount m n s = emitAll (Source.countPart m n) s := by
  cases m <;> simp [emitCount, Source.countPart, emit_eq_emitAll]

theorem emitDesignator_eq (s : State) : emitDesignator s = emitAll (Source.designatorPart s.eci) s := by
  cases h : s.eci.v <;> simp [emitDesignator, State.designator, Source.designatorPart, h, emit_eq_emitAll]

/-- Steps 1 to 3 of an encode, on the emptied sequence (R140). -/
theorem emitHeader_eq (m : Mode) (s : State) :
    emitHeader m s =
      emitAll (m.indicator.toNat :: (Source.countPart m s.pbuf.length ++ Source.designatorPart s.eci))
        (clearCodewords s) := by
  rw [emitHeader, emitDesignator_eq, emitCount_eq, emit_eq_emitAll, emitAll_emitAll, emitAll_emitAll]
  rfl

theorem payloadPart_nil (p : Config.Params) (m : Mode) : Source.payloadPart p m [] = [] := by
  cases m <;> rfl

theorem payloadPart_cons (p : Config.Params) (m : Mode) (c : Elem) (cs : List Elem) :
    Source.payloadPart p m (c :: cs) = Source.payloadPart p m [c] ++ Source.payloadPart p m cs := by
  cases m
  case numeric => exact List.filterMap_append (l := [c])
  case alphanumeric => exact List.filterMap_append (l := [c])
  all_goals rfl

/-- `PAY` of a mappable element emits its payload codewords (R144 to R149). -/
theorem pay_of_mappable {p : Config.Params} {m : Mode} {c : Elem} (h : Source.Mappable p m c) (i : Nat) (s : State) :
    pay p m i c s = .ok (emitAll (Source.payloadPart p m [c]) s) := by
  obtain ⟨hbyte, hkanji⟩ := h
  cases m
  case numeric =>
    simp only [pay, Source.payloadPart, Source.digitValue, isDigit_iff, emit_eq_emitAll, List.filterMap_cons,
      List.filterMap_nil]
    split_ifs <;> simp
  case alphanumeric =>
    simp only [pay, Source.payloadPart, Source.alnumValue, isDigit_iff, isUpper_iff, isLower_iff, emit_eq_emitAll,
      List.filterMap_cons, List.filterMap_nil]
    split_ifs <;> simp
  case byte => simp [pay, Source.payloadPart, hbyte rfl, emit_eq_emitAll]
  case kanji =>
    obtain ⟨b, hb⟩ := Option.ne_none_iff_exists'.mp (hkanji rfl)
    have hlt : b.toNat < 256 := b.isLt
    simp [pay, Source.payloadPart, Source.leadByte, hb, emit_eq_emitAll, Nat.div_eq_of_lt hlt, Nat.mod_eq_of_lt hlt]
  case eci => simp [pay, Source.payloadPart]

/-- Only Byte and Kanji have elements without a payload codeword rule. -/
theorem mode_of_not_mappable {p : Config.Params} {m : Mode} {c : Elem} (h : ¬ Source.Mappable p m c) :
    m = .byte ∨ m = .kanji := by
  by_contra hm
  rw [not_or] at hm
  exact h ⟨fun hb => absurd hb hm.1, fun hk => absurd hk hm.2⟩

/-- `PAY` of any other element raises MAP (R147, R148). -/
theorem pay_of_not_mappable {p : Config.Params} {m : Mode} {c : Elem} (h : ¬ Source.Mappable p m c) (i : Nat)
    (s : State) : pay p m i c s = .error (enterFault .map (BitVec.ofNat 32 i) s) := by
  rcases mode_of_not_mappable h with rfl | rfl
  · have hc : ¬ c.toNat ≤ 0xFF := by simpa [Source.Mappable] using h
    simp [pay, hc]
  · have hc : p.kanjiLead c = none := by simpa [Source.Mappable] using h
    simp [pay, hc]

/-- The payload loop emits the payload codewords, or raises MAP at the first element that is not mappable. -/
theorem payLoop_outcome (p : Config.Params) (m : Mode) (i : Nat) (cs : List Elem) (s : State) :
    ((∀ c ∈ cs, Source.Mappable p m c) ∧ payLoop p m i cs s = .ok (emitAll (Source.payloadPart p m cs) s)) ∨
      ∃ k e, FirstFailing (Source.Mappable p m) cs k e ∧
        payLoop p m i cs s = .error (enterFault .map (BitVec.ofNat 32 (i + k)) s) := by
  induction cs generalizing i s with
  | nil => exact .inl ⟨by simp, by simp [payLoop, payloadPart_nil]⟩
  | cons c cs ih =>
    by_cases hc : Source.Mappable p m c
    · rw [payLoop, pay_of_mappable hc]
      rcases ih (i + 1) (emitAll (Source.payloadPart p m [c]) s) with ⟨hall, hok⟩ | ⟨k, e, hfirst, herr⟩
      · refine .inl ⟨List.forall_mem_cons.mpr ⟨hc, hall⟩, ?_⟩
        simpa [payloadPart_cons p m c cs] using hok
      · refine .inr ⟨k + 1, e, hfirst.tail hc, ?_⟩
        simpa [Nat.add_assoc, Nat.add_comm 1 k] using herr
    · rw [payLoop, pay_of_not_mappable hc]
      exact .inr ⟨0, c, .head hc cs, rfl⟩

/-- `CWBUF` after an encode that meets mappable elements only: the source's segment (R95, R140). -/
def segment (m : Mode) (s : State) : List Codeword :=
  (Source.encode Config.params m s.pbuf s.eci).map (BitVec.ofNat 16)

/-- `ENC(m)` leaves the source's segment, or raises MAP at the first element that is not mappable. -/
theorem encodeFrame_outcome (m : Mode) (s : State) :
    ((∀ c ∈ s.pbuf, Source.Mappable Config.params m c) ∧
        encodeFrame Config.params m s = .ok { s with cwbuf := segment m s }) ∨
      ∃ k e, FirstFailing (Source.Mappable Config.params m) s.pbuf k e ∧
        encodeFrame Config.params m s = .error (enterFault .map (BitVec.ofNat 32 k) s) := by
  rw [encodeFrame, emitHeader_eq]
  rcases payLoop_outcome Config.params m 0 s.pbuf (emitAll _ (clearCodewords s)) with
    ⟨hall, hok⟩ | ⟨k, e, hfirst, herr⟩
  · refine .inl ⟨hall, hok.trans ?_⟩
    rw [emitAll_emitAll]
    rfl
  · refine .inr ⟨k, e, hfirst, herr.trans ?_⟩
    rw [enterFault_map_emitAll, Nat.zero_add]
    rfl

/-! ### The groups of a bit string -/

/-- A codeword that `TOBITS` can serialize (R171). -/
abbrev FitsGroup (w : Codeword) : Prop := w.toNat < 256

/-- The loop of `TOBITS` puts out each codeword's low byte, or raises OVF at the first codeword of 256 or more. -/
theorem serializeLoop_outcome (j : Nat) (ws : List Codeword) (s : State) :
    ((∀ w ∈ ws, FitsGroup w) ∧
        serializeLoop j ws s = .ok { s with obuf := s.obuf ++ ws.map (BitVec.setWidth 8) }) ∨
      ∃ k w, FirstFailing FitsGroup ws k w ∧
        serializeLoop j ws s = .error (enterFault .ovf (BitVec.ofNat 32 (j + k)) s) := by
  induction ws generalizing j s with
  | nil => exact .inl ⟨by simp, by simp [serializeLoop]⟩
  | cons w ws ih =>
    by_cases hw : FitsGroup w
    · rw [serializeLoop, if_neg (Nat.not_le.mpr hw)]
      rcases ih (j + 1) (outByte (w.setWidth 8) s) with ⟨hall, hok⟩ | ⟨k, v, hfirst, herr⟩
      · refine .inl ⟨List.forall_mem_cons.mpr ⟨hw, hall⟩, ?_⟩
        simpa [outByte] using hok
      · refine .inr ⟨k + 1, v, hfirst.tail hw, ?_⟩
        simpa [enterFault, outByte, Nat.add_assoc, Nat.add_comm 1 k] using herr
    · rw [serializeLoop, if_pos (Nat.not_lt.mp hw)]
      exact .inr ⟨0, w, .head hw ws, rfl⟩

/-- `TOBITS` leaves one group per codeword, or raises OVF at the first codeword of 256 or more. -/
theorem serialize_outcome (s : State) :
    ((∀ w ∈ s.cwbuf, FitsGroup w) ∧ serialize s = .ok { s with obuf := s.cwbuf.map (BitVec.setWidth 8) }) ∨
      ∃ k w, FirstFailing FitsGroup s.cwbuf k w ∧
        serialize s = .error (enterFault .ovf (BitVec.ofNat 32 k) s) := by
  rcases serializeLoop_outcome 0 s.cwbuf (clearGroups s) with ⟨hall, hok⟩ | ⟨k, w, hfirst, herr⟩
  · exact .inl ⟨hall, hok⟩
  · refine .inr ⟨k, w, hfirst, herr.trans ?_⟩
    rw [Nat.zero_add]
    rfl

/-! ### Reads -/

/-- What a read of a register returns (44_control_and_host.md R194). -/
def readWord (s : State) : Reg → Word
  | .cmd => 0#32
  | .status => s.statusBits
  | .finfo => s.finfo
  | .pdata => 0#32
  | .plen => s.plen.setWidth 32
  | .eci => s.eciBits
  | .mode => s.modeBits.setWidth 32
  | .cwn => s.cwn.setWidth 32
  | .cwidx => s.cwidx.setWidth 32
  | .cwdata => s.cwdata.setWidth 32
  | .bitn => s.bitn.setWidth 32
  | .obidx => s.obidx.setWidth 32
  | .obdata => s.obdata.setWidth 32
  | .ver => s.vidx.setWidth 32
  | .cfg => Config.cfgWord
  | .id => Config.idWord

/-- The instruction of a read of a register. -/
def readInstr (r : Reg) : Instr := decodeRead r.idx

theorem encode_readInstr (r : Reg) : encode (readInstr r) = .read r.idx := by cases r <;> rfl

theorem exec_readInstr (r : Reg) (s : State) : exec (readInstr r) s = .next (reply (readWord s r) s) := by
  cases r <;> rfl

theorem serveTxn_read (r : Reg) (s : State) : serveTxn (.read r.idx) s = .next (reply (readWord s r) s) :=
  exec_readInstr r s

/-! ### What an instruction can do -/

/-- `i` is an encode, and its mode in state `s` is `m`: one of the five with a mode of its own, or `ENC.S` with `m`
selected (R150 to R155). -/
def Encodes (s : State) (i : Instr) (m : Mode) : Prop := i = encodeCommand m ∨ (i = .encS ∧ s.mode = some m)

/-- Everything an instruction can do in state `s`: the instruction and the state it leads to. -/
inductive Effect (s : State) : Instr → State → Prop where
  | ignored (i : Instr) (halted : s.Halted) : Effect s i s
  | modeSelected (running : s.Running) : Effect s .selmode (writeMode (selectMode Config.params s.pbuf) s)
  | encoded (i : Instr) (m : Mode) (running : s.Running) (encodes : Encodes s i m)
      (mappable : ∀ c ∈ s.pbuf, Source.Mappable Config.params m c) : Effect s i { s with cwbuf := segment m s }
  | unmappable (i : Instr) (m : Mode) (k : Nat) (e : Elem) (running : s.Running) (encodes : Encodes s i m)
      (first : FirstFailing (Source.Mappable Config.params m) s.pbuf k e) :
      Effect s i (enterFault .map (BitVec.ofNat 32 k) s)
  | noMode (running : s.Running) (unselected : s.mode = none) : Effect s .encS (enterFault .mode 0#32 s)
  | serialized (running : s.Running) (fits : ∀ w ∈ s.cwbuf, FitsGroup w) :
      Effect s .tobits { s with obuf := s.cwbuf.map (BitVec.setWidth 8) }
  | overflowed (k : Nat) (w : Codeword) (running : s.Running) (first : FirstFailing FitsGroup s.cwbuf k w) :
      Effect s .tobits (enterFault .ovf (BitVec.ofNat 32 k) s)
  | versionEstimated (running : s.Running) :
      Effect s .estver (writeVidx (BitVec.ofNat 4 (versionRow Config.params s.cwbuf.length)) s)
  | payloadCleared (running : s.Running) : Effect s .pclr (clearPayload s)
  | reset : Effect s .srst (resetMachine s)
  | pushed (e : Elem) (running : s.Running) (room : s.pbuf.length < Config.maxLen) :
      Effect s (.push e) (appendElem e s)
  | payloadFull (e : Elem) (running : s.Running) (full : Config.maxLen ≤ s.pbuf.length) :
      Effect s (.push e) (enterFault .pfull (e.setWidth 32) s)
  | eciSet (val : Desig) (running : s.Running) : Effect s (.seteci val) (writeEci true val s)
  | eciCleared (val : Desig) (running : s.Running) : Effect s (.clreci val) (writeEci false val s)
  | cwidxWritten (n : BufIdx) : Effect s (.setcwidx n) (writeCwidx n s)
  | obidxWritten (n : BufIdx) : Effect s (.setobidx n) (writeObidx n s)
  | replied (r : Reg) : Effect s (readInstr r) (reply (readWord s r) s)

/-- An instruction that is ignored while halted has an effect when its effect in a running state is one. -/
theorem effect_of_whenRunning {s t : State} {i : Instr} {r : Result} (h : whenRunning s r = .next t)
    (run : s.Running → r = .next t → Effect s i t) : Effect s i t := by
  rcases whenRunning_cases h with ⟨hs, rfl⟩ | ⟨hr, h⟩
  · exact .ignored i hs
  · exact run hr h

/-- An instruction that is one update, unless halted. -/
theorem effect_of_update {s t u : State} {i : Instr} (h : whenRunning s (.next u) = .next t)
    (run : s.Running → Effect s i u) : Effect s i t :=
  effect_of_whenRunning h fun hr h => by cases h; exact run hr

theorem effect_of_encodeFrame {s t : State} {i : Instr} {m : Mode} (hi : Encodes s i m) (hr : s.Running)
    (h : conclude (encodeFrame Config.params m s) = .next t) : Effect s i t := by
  rcases encodeFrame_outcome m s with ⟨hall, hok⟩ | ⟨k, e, hfirst, herr⟩
  · rw [hok] at h
    cases h
    exact .encoded i m hr hi hall
  · rw [herr] at h
    cases h
    exact .unmappable i m k e hr hi hfirst

theorem effect_of_encodeCommand {s t : State} (m : Mode)
    (h : whenRunning s (conclude (encodeFrame Config.params m s)) = .next t) : Effect s (encodeCommand m) t :=
  effect_of_whenRunning h fun hr h => effect_of_encodeFrame (.inl rfl) hr h

theorem effect_of_encS {s t : State} (h : execEncS s = .next t) : Effect s .encS t := by
  refine effect_of_whenRunning h fun hr h => ?_
  cases hm : s.mode with
  | none =>
    simp only [encodeSelected, hm, raise_eq] at h
    cases h
    exact .noMode hr hm
  | some m =>
    simp only [encodeSelected, hm] at h
    exact effect_of_encodeFrame (.inr ⟨rfl, hm⟩) hr h

theorem effect_of_tobits {s t : State} (h : execTobits s = .next t) : Effect s .tobits t := by
  refine effect_of_whenRunning h fun hr h => ?_
  rcases serialize_outcome s with ⟨hall, hok⟩ | ⟨k, w, hfirst, herr⟩
  · rw [hok] at h
    cases h
    exact .serialized hr hall
  · rw [herr] at h
    cases h
    exact .overflowed k w hr hfirst

theorem effect_of_push {s t : State} {e : Elem} (h : execPush e s = .next t) : Effect s (.push e) t := by
  refine effect_of_whenRunning h fun hr h => ?_
  split at h
  case isTrue hfull => cases h; exact .payloadFull e hr hfull
  case isFalse hroom => cases h; exact .pushed e hr (Nat.not_le.mp hroom)

theorem effect_of_readInstr {s t : State} (r : Reg) (h : exec (readInstr r) s = .next t) :
    Effect s (readInstr r) t := by
  rw [exec_readInstr] at h
  cases h
  exact .replied r

/-- Every instruction has an effect of `Effect`. -/
theorem exec_effect {i : Instr} {s t : State} (h : exec i s = .next t) : Effect s i t := by
  cases i with
  | selmode => exact effect_of_update h .modeSelected
  | encS => exact effect_of_encS h
  | encN => exact effect_of_encodeCommand .numeric h
  | encA => exact effect_of_encodeCommand .alphanumeric h
  | encB => exact effect_of_encodeCommand .byte h
  | encE => exact effect_of_encodeCommand .eci h
  | encK => exact effect_of_encodeCommand .kanji h
  | tobits => exact effect_of_tobits h
  | estver => exact effect_of_update h .versionEstimated
  | pclr => exact effect_of_update h .payloadCleared
  | srst => cases h; exact .reset
  | push e => exact effect_of_push h
  | seteci val => exact effect_of_update h (.eciSet val)
  | clreci val => exact effect_of_update h (.eciCleared val)
  | setcwidx n => cases h; exact .cwidxWritten n
  | setobidx n => cases h; exact .obidxWritten n
  | rdCmd => exact effect_of_readInstr .cmd h
  | rdStatus => exact effect_of_readInstr .status h
  | rdFinfo => exact effect_of_readInstr .finfo h
  | rdPdata => exact effect_of_readInstr .pdata h
  | rdPlen => exact effect_of_readInstr .plen h
  | rdEci => exact effect_of_readInstr .eci h
  | rdMode => exact effect_of_readInstr .mode h
  | rdCwn => exact effect_of_readInstr .cwn h
  | rdCwidx => exact effect_of_readInstr .cwidx h
  | rdCwdata => exact effect_of_readInstr .cwdata h
  | rdBitn => exact effect_of_readInstr .bitn h
  | rdObidx => exact effect_of_readInstr .obidx h
  | rdObdata => exact effect_of_readInstr .obdata h
  | rdVer => exact effect_of_readInstr .ver h
  | rdCfg => exact effect_of_readInstr .cfg h
  | rdId => exact effect_of_readInstr .id h

/-- What serving a transaction can do: the effect of its instruction, the CMD fault of an illegal word (R101, R202), or
nothing (R190, R209). -/
theorem serveTxn_cases {x : HostTxn} {s t : State} (h : serveTxn x s = .next t) :
    (∃ i, decode x = .ok i ∧ Effect s i t) ∨
      (∃ w, decode x = .error (.illegalCommand w) ∧ s.Running ∧ t = enterFault .cmd w s) ∨
      (∃ w, decode x = .error (.illegalCommand w) ∧ s.Halted ∧ t = s) ∨
      ∃ idx, decode x = .error (.readOnlyWrite idx) ∧ t = s := by
  rw [serveTxn] at h
  rcases hx : decode x with (w | idx) | i
  · rw [hx] at h
    rcases whenRunning_cases (r := .next (enterFault .cmd w s)) h with ⟨hs, rfl⟩ | ⟨hr, h⟩
    · exact .inr (.inr (.inl ⟨w, rfl, hs, rfl⟩))
    · cases h
      exact .inr (.inl ⟨w, rfl, hr, rfl⟩)
  · rw [hx] at h
    cases h
    exact .inr (.inr (.inr ⟨idx, rfl, rfl⟩))
  · rw [hx] at h
    exact .inl ⟨i, rfl, exec_effect h⟩

end Sys2Proof.Machine
end

section
/-! The invariant of the reachable states (10_state.md section 5): it holds at reset and every step keeps it. -/

namespace Sys2Proof.Machine

/-! ### What a segment looks like -/

theorem payloadPart_length_le (p : Config.Params) (m : Mode) (cs : List Elem) :
    (Source.payloadPart p m cs).length ≤ 2 * cs.length := by
  cases m
  case numeric => exact (List.length_filterMap_le _ _).trans (by omega)
  case alphanumeric => exact (List.length_filterMap_le _ _).trans (by omega)
  case byte => simp only [Source.payloadPart, List.length_map]; omega
  case kanji => simp [Source.payloadPart, Nat.mul_comm]
  case eci => simp [Source.payloadPart]

theorem countPart_length_le (m : Mode) (n : Nat) : (Source.countPart m n).length ≤ 2 := by
  cases m <;> simp [Source.countPart]

theorem designatorPart_shape (e : Eci) :
    Source.designatorPart e = [] ∨ (Source.designatorPart e).length = 2 := by
  cases h : e.v <;> simp [Source.designatorPart, h]

/-- Two codewords per element and five before them: `CWDEPTH` is enough (41_segment_encoder.md R157). -/
theorem segment_length_le {m : Mode} {s : State} (h : s.pbuf.length ≤ Config.maxLen) :
    (segment m s).length ≤ Config.cwDepth := by
  have hcount := countPart_length_le m s.pbuf.length
  have hdes : (Source.designatorPart s.eci).length ≤ 2 := by
    rcases designatorPart_shape s.eci with h | h <;> simp [h]
  have hpay := payloadPart_length_le Config.params m s.pbuf
  simp only [segment, Source.encode, List.length_map, List.length_cons, List.length_append, Config.maxLen,
    Config.cwDepth] at h ⊢
  omega

theorem segmentShape_segment {m : Mode} {s : State} (h : s.pbuf.length ≤ Config.maxLen) :
    SegmentShape (segment m s) := by
  right
  cases m
  case numeric => simp [segment, Source.encode, Source.countPart, Mode.indicator]
  case alphanumeric => simp [segment, Source.encode, Source.countPart, Mode.indicator]
  case byte => simp [segment, Source.encode, Source.countPart, Mode.indicator]
  case kanji =>
    have hhigh : s.pbuf.length / 256 % 65536 < 256 := by simp only [Config.maxLen] at h; omega
    have hlow : s.pbuf.length % 256 % 65536 < 256 := by omega
    simpa [segment, Source.encode, Source.countPart, Mode.indicator] using ⟨hhigh, hlow⟩
  case eci =>
    simpa [segment, Source.encode, Source.countPart, Source.payloadPart, Mode.indicator] using
      designatorPart_shape s.eci

/-! ### Each update keeps the invariant -/

theorem reset_inv : State.reset.Inv := ⟨reset_wf, by simp, by simp, .inl rfl⟩

theorem resetMachine_inv (s : State) : (resetMachine s).Inv := ⟨resetMachine_wf s, by simp, by simp, .inl rfl⟩

theorem enterFault_inv {s : State} (h : s.Inv) (c : Cause) (info : Word) : (enterFault c info s).Inv := by
  obtain ⟨hwf, -, -, hshape⟩ := h
  refine ⟨enterFault_wf hwf c info, by simp, by simp, ?_⟩
  rw [enterFault_cwbuf]
  split
  · exact .inl rfl
  · exact hshape

theorem appendElem_inv {s : State} (h : s.Inv) (room : s.pbuf.length < Config.maxLen) (e : Elem) :
    (appendElem e s).Inv := by
  obtain ⟨hwf, hrest⟩ := h
  exact ⟨appendElem_wf hwf room e, hrest⟩

theorem clearPayload_inv {s : State} (h : s.Inv) : (clearPayload s).Inv := by
  obtain ⟨hwf, hrest⟩ := h
  exact ⟨clearPayload_wf hwf, hrest⟩

theorem segment_inv {s : State} (h : s.Inv) (m : Mode) : State.Inv { s with cwbuf := segment m s } := by
  obtain ⟨⟨hp, -, ho⟩, hhalt, hinfo, -⟩ := h
  exact ⟨⟨hp, segment_length_le hp, ho⟩, hhalt, hinfo, segmentShape_segment hp⟩

theorem groups_inv {s : State} (h : s.Inv) : State.Inv { s with obuf := s.cwbuf.map (BitVec.setWidth 8) } := by
  obtain ⟨⟨hp, hc, -⟩, hrest⟩ := h
  exact ⟨⟨hp, hc, by simpa using hc⟩, hrest⟩

/-- Every instruction keeps the invariant. The updates not named here write none of the fields it speaks of. -/
theorem Effect.inv {s t : State} {i : Instr} (h : Effect s i t) (hs : s.Inv) : t.Inv := by
  cases h with
  | encoded _ m => exact segment_inv hs m
  | unmappable => exact enterFault_inv hs _ _
  | noMode => exact enterFault_inv hs _ _
  | serialized => exact groups_inv hs
  | overflowed => exact enterFault_inv hs _ _
  | payloadCleared => exact clearPayload_inv hs
  | reset => exact resetMachine_inv s
  | pushed e _ room => exact appendElem_inv hs room e
  | payloadFull => exact enterFault_inv hs _ _
  | _ => exact hs

theorem serveTxn_inv {x : HostTxn} {s t : State} (hs : s.Inv) (h : serveTxn x s = .next t) : t.Inv := by
  rcases serveTxn_cases h with ⟨_, -, heff⟩ | ⟨w, -, -, rfl⟩ | ⟨_, -, -, rfl⟩ | ⟨_, -, rfl⟩
  · exact heff.inv hs
  · exact enterFault_inv hs .cmd w
  · exact hs
  · exact hs

/-- Settles O48: a step serves a transaction, resets, or does nothing, and each keeps the invariant. -/
theorem invariantKeptByStep : Obligations.InvariantKeptByStep := by
  intro s t hs h
  rcases step_cases h with ⟨-, rfl⟩ | ⟨x, rest, -, hx⟩ | ⟨rest, -, rfl⟩
  · exact hs
  · have hrest : State.Inv { s with hostIn := rest } := hs
    exact serveTxn_inv hrest hx
  · exact resetMachine_inv _

/-- Settles O49: the buffers are empty and there is no fault. -/
theorem invariantAtReset : Obligations.InvariantAtReset := reset_inv

end Sys2Proof.Machine
end

section
/-! The "written by" column of 10_state.md R20: for each piece of state, the effects that write it. -/

namespace Sys2Proof.Machine

section

variable {s t : State} {i : Instr}

theorem Effect.pbuf_writers (h : Effect s i t) (hne : t.pbuf ≠ s.pbuf) :
    (∃ e, i = .push e) ∨ i = .pclr ∨ i = .srst := by
  cases h with
  | pushed e => exact .inl ⟨e, rfl⟩
  | payloadCleared => exact .inr (.inl rfl)
  | reset => exact .inr (.inr rfl)
  | _ => exact absurd rfl hne

theorem Effect.eci_writers (h : Effect s i t) (hne : t.eci ≠ s.eci) :
    (∃ v, i = .seteci v) ∨ (∃ v, i = .clreci v) ∨ i = .srst := by
  cases h with
  | eciSet val => exact .inl ⟨val, rfl⟩
  | eciCleared val => exact .inr (.inl ⟨val, rfl⟩)
  | reset => exact .inr (.inr rfl)
  | _ => exact absurd rfl hne

theorem Effect.mode_writers (h : Effect s i t) (hne : t.mode ≠ s.mode) : i = .selmode ∨ i = .srst := by
  cases h with
  | modeSelected => exact .inl rfl
  | reset => exact .inr rfl
  | _ => exact absurd rfl hne

theorem Encodes.mem_encodes {m : Mode} (h : Encodes s i m) :
    i ∈ [Instr.encN, .encA, .encB, .encK, .encE, .encS, .srst] := by
  rcases h with rfl | ⟨rfl, -⟩
  · cases m <;> decide
  · decide

theorem Effect.cwbuf_writers (h : Effect s i t) (hne : t.cwbuf ≠ s.cwbuf) :
    i ∈ [Instr.encN, .encA, .encB, .encK, .encE, .encS, .srst] := by
  cases h with
  | encoded _ _ _ encodes => exact encodes.mem_encodes
  | unmappable _ _ _ _ _ encodes => exact encodes.mem_encodes
  | reset => decide
  | _ => exact absurd rfl hne

theorem Effect.obuf_writers (h : Effect s i t) (hne : t.obuf ≠ s.obuf) : i = .tobits ∨ i = .srst := by
  cases h with
  | serialized => exact .inl rfl
  | overflowed => exact .inl rfl
  | reset => exact .inr rfl
  | _ => exact absurd rfl hne

theorem Effect.vidx_writers (h : Effect s i t) (hne : t.vidx ≠ s.vidx) : i = .estver ∨ i = .srst := by
  cases h with
  | versionEstimated => exact .inl rfl
  | reset => exact .inr rfl
  | _ => exact absurd rfl hne

/-- An encode that can raise MAP is `ENC.B`, `ENC.K` or `ENC.S`. -/
theorem Encodes.mem_mappers {m : Mode} {c : Elem} (h : Encodes s i m)
    (hc : ¬ Source.Mappable Config.params m c) : i ∈ [Instr.encB, .encK, .encS, .tobits, .srst] := by
  rcases h with rfl | ⟨rfl, -⟩
  · rcases mode_of_not_mappable hc with rfl | rfl <;> decide
  · decide

theorem Effect.fault_writers (h : Effect s i t) (hne : t.status ≠ s.status ∨ t.finfo ≠ s.finfo) :
    (∃ e, i = .push e) ∨ i ∈ [Instr.encB, .encK, .encS, .tobits, .srst] := by
  cases h with
  | unmappable _ _ _ _ _ encodes first => exact .inr (encodes.mem_mappers first.fails)
  | noMode => exact .inr (by decide)
  | overflowed => exact .inr (by decide)
  | reset => exact .inr (by decide)
  | payloadFull e => exact .inl ⟨e, rfl⟩
  | _ => exact hne.elim (absurd rfl) (absurd rfl)

theorem Effect.cwidx_writers (h : Effect s i t) (hne : t.cwidx ≠ s.cwidx) :
    (∃ n, i = .setcwidx n) ∨ i = .srst := by
  cases h with
  | cwidxWritten n => exact .inl ⟨n, rfl⟩
  | reset => exact .inr rfl
  | _ => exact absurd rfl hne

theorem Effect.obidx_writers (h : Effect s i t) (hne : t.obidx ≠ s.obidx) :
    (∃ n, i = .setobidx n) ∨ i = .srst := by
  cases h with
  | obidxWritten n => exact .inl ⟨n, rfl⟩
  | reset => exact .inr rfl
  | _ => exact absurd rfl hne

theorem Effect.hrdata_writers (h : Effect s i t) (hne : t.hrdata ≠ s.hrdata) :
    ∃ r : Reg, encode i = .read r.idx := by
  cases h with
  | replied r => exact ⟨r, encode_readInstr r⟩
  | _ => exact absurd rfl hne

theorem Effect.hostIn_eq (h : Effect s i t) : t.hostIn = s.hostIn := by
  cases h <;> rfl

end

/-- Settles O47: column by column, from the one relation of everything an instruction can do. -/
theorem writtenByColumn : Obligations.WrittenByColumn := by
  intro i s t h
  have heff := exec_effect h
  exact ⟨heff.pbuf_writers, heff.eci_writers, heff.mode_writers, heff.cwbuf_writers, heff.obuf_writers,
    heff.vidx_writers, heff.fault_writers, heff.cwidx_writers, heff.obidx_writers, heff.hrdata_writers,
    heff.hostIn_eq⟩

end Sys2Proof.Machine
end

section
/-! What the host reads: every register in the reset state (10_state.md R38), and the two windows (R29). -/

namespace Sys2Proof.Machine

theorem readWord_reset (r : Reg) :
    readWord State.reset r = if r = .cfg then 0x15101810#32 else if r = .id then 0x51525331#32 else 0#32 := by
  cases r <;> decide

/-- Settles O3: each read replies its register's word, and the reset state gives that word. -/
theorem resetStateReadsAsStated : Obligations.ResetStateReadsAsStated :=
  ⟨fun r => ⟨_, serveTxn_read r State.reset, readWord_reset r⟩, rfl⟩

theorem cwdata_of_getElem? {s : State} {w : Codeword} (h : s.cwbuf[s.cwidx.toNat]? = some w) : s.cwdata = w := by
  simp [State.cwdata, List.getD_eq_getElem?_getD, h]

theorem cwdata_of_length_le {s : State} (h : s.cwbuf.length ≤ s.cwidx.toNat) : s.cwdata = 0#16 :=
  List.getD_eq_default _ _ h

theorem obdata_of_getElem? {s : State} {b : Group} (h : s.obuf[s.obidx.toNat]? = some b) : s.obdata = b := by
  simp [State.obdata, List.getD_eq_getElem?_getD, h]

theorem obdata_of_length_le {s : State} (h : s.obuf.length ≤ s.obidx.toNat) : s.obdata = 0#8 :=
  List.getD_eq_default _ _ h

/-- Settles O41: each read replies its window, which is the element at the index or 0. -/
theorem windowsReadZeroOutside : Obligations.WindowsReadZeroOutside := by
  intro s
  have hcw : exec .rdCwdata s = .next (reply (s.cwdata.setWidth 32) s) := exec_readInstr .cwdata s
  have hob : exec .rdObdata s = .next (reply (s.obdata.setWidth 32) s) := exec_readInstr .obdata s
  refine ⟨fun w hw => ?_, fun hle => ?_, fun b hb => ?_, fun hle => ?_⟩
  · rw [hcw, cwdata_of_getElem? hw]; rfl
  · rw [hcw, cwdata_of_length_le hle]; rfl
  · rw [hob, obdata_of_getElem? hb]; rfl
  · rw [hob, obdata_of_length_le hle]; rfl

end Sys2Proof.Machine
end

section
/-! Encoding what was decoded (20_memory.md R66): a read comes back as it was, a command word as its row of the command
table, and the word of any other written register as the field that the register map does not ignore. -/

namespace Sys2Proof

theorem encode_decodeRead (idx : RegIdx) : encode (decodeRead idx) = .read idx := by
  revert idx
  decide

theorem encode_commandTable : ∀ row ∈ commandTable, encode row.2 = .write 0x0#4 row.1 := by decide

theorem encode_of_decodeCommand {w : Word} {i : Instr} (h : decodeCommand w = .ok i) : encode i = .write 0x0#4 w := by
  rw [decodeCommand] at h
  cases hrow : commandTable.find? (fun row => row.1 == w) with
  | none =>
    rw [hrow] at h
    cases h
  | some row =>
    rw [hrow] at h
    cases h
    have hw : row.1 = w := by simpa using List.find?_some hrow
    rw [encode_commandTable row (List.mem_of_find?_eq_some hrow), hw]

theorem encode_decodeEci (v : Word) : encode (decodeEci v) = .write 0x5#4 (v &&& 0x80FFFFFF#32) := by
  rw [← eciWord_of_fields v, decodeEci]
  cases v.getLsbD 31 <;> rfl

theorem encode_of_decodeWrite {idx : RegIdx} {v : Word} {i : Instr} (h : decodeWrite idx v = .ok i) :
    encode i = (HostTxn.write idx v).clearIgnored := by
  unfold decodeWrite at h
  split at h
  · exact encode_of_decodeCommand h
  · cases h
    exact congrArg (HostTxn.write 0x3#4) (setWidth_extract 21 v _ (by decide) rfl)
  · cases h
    exact encode_decodeEci v
  · cases h
    exact congrArg (HostTxn.write 0x8#4) (setWidth_extract 18 v _ (by decide) rfl)
  · cases h
    exact congrArg (HostTxn.write 0xB#4) (setWidth_extract 18 v _ (by decide) rfl)
  · cases h

/-- Settles O8: a read, or a write to one of the five registers that can be written. -/
theorem encodeOfDecode : Obligations.EncodeOfDecode := by
  intro t i h
  cases t with
  | read idx =>
    cases h
    exact encode_decodeRead idx
  | write idx v => exact encode_of_decodeWrite h

end Sys2Proof
end

section
/-! Every transaction completes (20_memory.md R70, 70_reset_and_hazards.md R244), and the ones that are neither a command
nor a push are idempotent (R65). -/

namespace Sys2Proof.Machine

/-! ### Completion -/

theorem whenRunning_completes (s : State) {r : Result} (h : ∃ t, r = .next t) : ∃ t, whenRunning s r = .next t := by
  by_cases hs : s.Halted
  · exact ⟨s, whenRunning_halted hs r⟩
  · rwa [whenRunning_running (by simpa using hs)]

/-- An `ENC`, or `TOBITS`: a body that may end in a fault. -/
theorem command_completes (s : State) (body : Except State State) : ∃ t, whenRunning s (conclude body) = .next t :=
  whenRunning_completes s (conclude_next body)

/-- An instruction that is one update, unless halted. -/
theorem update_completes (s u : State) : ∃ t, whenRunning s (.next u) = .next t := whenRunning_completes s ⟨u, rfl⟩

theorem execPush_completes (e : Elem) (s : State) : ∃ t, execPush e s = .next t := by
  refine whenRunning_completes s ?_
  split <;> exact ⟨_, rfl⟩

theorem exec_completes (i : Instr) (s : State) : ∃ t, exec i s = .next t := by
  cases i
  case selmode | estver | pclr | seteci | clreci => exact update_completes s _
  case encS | encN | encA | encB | encE | encK | tobits => exact command_completes s _
  case push e => exact execPush_completes e s
  all_goals exact ⟨_, rfl⟩

theorem serveTxn_completes (x : HostTxn) (s : State) : ∃ t, serveTxn x s = .next t := by
  rw [serveTxn]
  rcases decode x with (w | idx) | i
  · exact update_completes s _
  · exact ⟨s, rfl⟩
  · exact exec_completes i s

/-- A transaction leaves the events to come. -/
theorem serveTxn_hostIn {x : HostTxn} {s t : State} (h : serveTxn x s = .next t) : t.hostIn = s.hostIn := by
  rcases serveTxn_cases h with ⟨_, -, heff⟩ | ⟨_, -, -, rfl⟩ | ⟨_, -, -, rfl⟩ | ⟨_, -, rfl⟩
  · exact heff.hostIn_eq
  · rfl
  · rfl
  · rfl

/-- Settles O46: no event pending, a transaction first, or a reset pulse first. -/
theorem everyStepCompletes : Obligations.EveryStepCompletes := by
  intro s
  rcases hin : s.hostIn with _ | ⟨x | _, rest⟩
  · exact ⟨s, by rw [step, takeEvent_nil hin], hin⟩
  · obtain ⟨t, ht⟩ := serveTxn_completes x { s with hostIn := rest }
    exact ⟨t, by rw [step, takeEvent_cons hin]; exact ht, serveTxn_hostIn ht⟩
  · exact ⟨resetMachine { s with hostIn := rest }, by rw [step, takeEvent_cons hin]; rfl, rfl⟩

/-! ### Idempotence -/

/-- No register shows what the last read returned. -/
theorem readWord_reply (v : Word) (s : State) (r : Reg) : readWord (reply v s) r = readWord s r := by
  cases r <;> rfl

theorem readInstr_idempotent (r : Reg) (s : State) :
    exec (readInstr r) (reply (readWord s r) s) = .next (reply (readWord s r) s) := by
  rw [exec_readInstr, readWord_reply]
  rfl

theorem Encodes.isCommand {s : State} {i : Instr} {m : Mode} (h : Encodes s i m) : i.isCommand = true := by
  rcases h with rfl | ⟨rfl, -⟩
  · cases m <;> rfl
  · rfl

/-- Settles O39: an `ECI` or index write writes the same value again, and a read reads what no read changes. -/
theorem idempotentTransactions : Obligations.IdempotentTransactions := by
  intro i s t hpush hcmd h
  cases exec_effect h with
  | ignored => exact h
  | encoded _ _ _ encodes => simp [encodes.isCommand] at hcmd
  | unmappable _ _ _ _ _ encodes => simp [encodes.isCommand] at hcmd
  | pushed e => exact absurd rfl (hpush e)
  | payloadFull e => exact absurd rfl (hpush e)
  | eciSet val running => exact whenRunning_running (s := writeEci true val s) running _
  | eciCleared val running => exact whenRunning_running (s := writeEci false val s) running _
  | cwidxWritten => rfl
  | obidxWritten => rfl
  | replied r => exact readInstr_idempotent r s
  | _ => cases hcmd

end Sys2Proof.Machine
end

section
/-! The bit string after `TOBITS` (20_memory.md R60), and how the buffers change (R69). -/

namespace Sys2Proof.Machine

/-! ### The bit string -/

theorem bits_getElem? {s : State} {j b : Nat} {g : Group} (hg : s.obuf[j]? = some g) (hb : b ≤ 7) :
    s.bits[8 * j + b]? = some (g.getLsbD (7 - b)) := by
  obtain ⟨hj, -⟩ := List.getElem?_eq_some_iff.mp hg
  have hk : 8 * j + b < 8 * s.obuf.length := by omega
  have hdiv : (8 * j + b) / 8 = j := by omega
  have hmod : (8 * j + b) % 8 = b := by omega
  simp [State.bits, List.getElem?_range hk, hdiv, hmod, hg]

/-- A `TOBITS` that did not fault leaves one group per codeword. -/
theorem obuf_of_tobits {s t : State} (hs : s.Running) (h : exec .tobits s = .next t) (ht : t.Running) :
    t.obuf = s.cwbuf.map (BitVec.setWidth 8) := by
  have hbody : conclude (serialize s) = .next t := (whenRunning_running hs _).symm.trans h
  rcases serialize_outcome s with ⟨-, hok⟩ | ⟨_, _, -, herr⟩
  · rw [hok] at hbody
    cases hbody
    rfl
  · rw [herr] at hbody
    cases hbody
    cases ht

/-- Settles O28: group `j` is the low byte of codeword `j`, and the bit string takes a group's bits from the top. -/
theorem bitStringOrder : Obligations.BitStringOrder := by
  intro s t j w b hs h ht hw hb
  have hg : t.obuf[j]? = some (w.setWidth 8) := by simp [obuf_of_tobits hs h ht, hw]
  have hlow : 7 - b < 8 := by omega
  rw [bits_getElem? hg hb, BitVec.getLsbD_setWidth]
  simp [hlow]

/-! ### The buffers over a whole instruction -/

section

variable {s t : State} {i : Instr}

theorem Effect.pbuf_change (h : Effect s i t) : s.pbuf <+: t.pbuf ∨ t.pbuf = [] := by
  cases h with
  | pushed e => exact .inl (List.prefix_append s.pbuf [e])
  | payloadCleared => exact .inr rfl
  | reset => exact .inr rfl
  | _ => exact .inl List.prefix_rfl

theorem cwbuf_change (h : exec i s = .next t) :
    t.cwbuf = s.cwbuf ∨ t.cwbuf = [] ∨ i ∈ [Instr.encN, .encA, .encB, .encK, .encE, .encS] := by
  by_cases hne : t.cwbuf = s.cwbuf
  · exact .inl hne
  · by_cases hi : i = .srst
    · subst hi
      cases h
      exact .inr (.inl rfl)
    · have hmem := (exec_effect h).cwbuf_writers hne
      exact .inr (.inr (by simpa [hi] using hmem))

theorem obuf_change (h : exec i s = .next t) : t.obuf = s.obuf ∨ t.obuf = [] ∨ i = .tobits := by
  by_cases hne : t.obuf = s.obuf
  · exact .inl hne
  · rcases (exec_effect h).obuf_writers hne with rfl | rfl
    · exact .inr (.inr rfl)
    · cases h
      exact .inr (.inl rfl)

end

/-! ### The buffers inside an encode and inside `TOBITS` -/

theorem Appends.cwbuf_prefix {s t : State} (h : Appends s t) : s.cwbuf <+: t.cwbuf := by
  obtain ⟨added, rfl⟩ := h
  exact List.prefix_append s.cwbuf added

theorem payLoop_cwbuf_prefix {p : Config.Params} {m : Mode} {i : Nat} {cs : List Elem} {s t : State}
    (h : payLoop p m i cs s = .ok t) : s.cwbuf <+: t.cwbuf := by
  rcases payLoop_cases p m i cs s with ⟨u, hok, happ⟩ | ⟨_, _, -, -, herr⟩
  · cases hok.symm.trans h
    exact happ.cwbuf_prefix
  · cases herr.symm.trans h

theorem serializeLoop_obuf_prefix {j : Nat} {ws : List Codeword} {s t : State} (h : serializeLoop j ws s = .ok t) :
    s.obuf <+: t.obuf := by
  rcases serializeLoop_outcome j ws s with ⟨-, hok⟩ | ⟨_, _, -, herr⟩
  · cases hok.symm.trans h
    exact List.prefix_append s.obuf _
  · cases herr.symm.trans h

/-- Settles O50: over an instruction by its effect, and inside a command because its parts append. -/
theorem buffersAreAppendOnly : Obligations.BuffersAreAppendOnly :=
  ⟨fun _ _ _ h => ⟨(exec_effect h).pbuf_change, cwbuf_change h, obuf_change h⟩,
    fun v m n s => ⟨(emit_appends v s).cwbuf_prefix, (emitCount_appends m n s).cwbuf_prefix,
      (emitDesignator_appends s).cwbuf_prefix⟩,
    fun _ _ _ _ _ _ h => payLoop_cwbuf_prefix h, fun _ _ _ _ h => serializeLoop_obuf_prefix h⟩

end Sys2Proof.Machine
end

section
/-! Decoding what was encoded (30_encoding.md R90 to R93, R104): each field of a written word comes back, so an
instruction's transaction and an assembler statement's decode to the instruction they name. -/

namespace Sys2Proof

open Machine

@[simp] theorem decode_write_cmd (v : Word) : decode (.write 0x0#4 v) = decodeCommand v := rfl
@[simp] theorem decode_write_pdata (v : Word) : decode (.write 0x3#4 v) = .ok (.push (v.extractLsb' 0 21)) := rfl
@[simp] theorem decode_write_eci (v : Word) : decode (.write 0x5#4 v) = .ok (decodeEci v) := rfl
@[simp] theorem decode_write_cwidx (v : Word) : decode (.write 0x8#4 v) = .ok (.setcwidx (v.extractLsb' 0 18)) := rfl
@[simp] theorem decode_write_obidx (v : Word) : decode (.write 0xB#4 v) = .ok (.setobidx (v.extractLsb' 0 18)) := rfl

theorem decodeEci_eciWord (v : Bool) (val : Desig) :
    decodeEci (eciWord v val) = if v then .seteci val else .clreci val := by
  rw [decodeEci, eciWord_v, eciWord_val]

/-- Settles O7: a command word is its row of the command table, and an operand is its field of the word. -/
theorem decodeOfEncode : Obligations.DecodeOfEncode := by
  intro i
  cases i with
  | push e => rw [encode, decode_write_pdata, extract_setWidth e (by decide)]
  | seteci val => rw [encode, decode_write_eci, decodeEci_eciWord, if_pos rfl]
  | clreci val => rw [encode, decode_write_eci, decodeEci_eciWord, if_neg Bool.false_ne_true]
  | setcwidx n => rw [encode, decode_write_cwidx, extract_setWidth n (by decide)]
  | setobidx n => rw [encode, decode_write_obidx, extract_setWidth n (by decide)]
  | _ => rfl

/-- Settles O6: each word evaluates to its instruction. -/
theorem sampleWordsDecode : Obligations.SampleWordsDecode := by
  unfold Obligations.SampleWordsDecode
  decide

/-- The number `SETECI n` writes is the `ECI` word with `V` set and designator `n` (R104). -/
theorem ofNat_seteci {n : Nat} (h : n < 2 ^ 24) :
    BitVec.ofNat 32 (0x80000000 + n) = eciWord true (BitVec.ofNat 24 n) := by
  apply BitVec.eq_of_toNat_eq
  rw [eciWord_toNat, BitVec.toNat_ofNat, BitVec.toNat_ofNat]
  simp only [if_true]
  omega

theorem decode_seteciTxn {n : Nat} (h : n < 2 ^ 24) :
    decode (.write 0x5#4 (BitVec.ofNat 32 (0x80000000 + n))) = .ok (.seteci (BitVec.ofNat 24 n)) := by
  rw [ofNat_seteci h, decode_write_eci, decodeEci_eciWord, if_pos rfl]

theorem decode_pushTxn (v : Nat) : decode (pushTxn v) = .ok (.push (BitVec.ofNat 21 v)) := by
  rw [pushTxn, decode_write_pdata, extract_ofNat v 21 (by decide)]

theorem decode_setCwidxTxn (n : Nat) : decode (setCwidxTxn n) = .ok (.setcwidx (BitVec.ofNat 18 n)) := by
  rw [setCwidxTxn, decode_write_cwidx, extract_ofNat n 18 (by decide)]

theorem decode_setObidxTxn (n : Nat) : decode (setObidxTxn n) = .ok (.setobidx (BitVec.ofNat 18 n)) := by
  rw [setObidxTxn, decode_write_obidx, extract_ofNat n 18 (by decide)]

/-- Settles O11: each statement is one transaction, and that transaction decodes to its instruction. -/
theorem assemblerStatementsDecode : Obligations.AssemblerStatementsDecode := by
  refine ⟨fun i _ => congrArg (fun x => [x]) (decodeOfEncode i),
    fun v _ => congrArg (fun x => [x]) (decode_pushTxn v),
    fun n hn => congrArg (fun x => [x]) (decode_seteciTxn (of_decide_eq_true hn)), rfl,
    fun n _ => congrArg (fun x => [x]) (decode_setCwidxTxn n),
    fun n _ => congrArg (fun x => [x]) (decode_setObidxTxn n), ?_⟩
  decide

end Sys2Proof
end

section
/-! Which words are commands (30_encoding.md R101), by the fields `Z`, `OP` and `M` (R90). -/

namespace Sys2Proof

open Machine

/-- A word of which bits 31 to 8 are zero is the command word of its two other fields. -/
theorem eq_commandWord {w : Word} (h : w.extractLsb' 8 24 = 0#24) :
    w = commandWord (w.extractLsb' 4 4) (w.extractLsb' 0 4) := by
  rw [commandWord, ← h, BitVec.extractLsb'_append_extractLsb'_eq_extractLsb' (by decide),
    BitVec.extractLsb'_append_extractLsb'_eq_extractLsb' (by decide)]
  simp

/-- Every word of the command table has `Z` = 0. -/
theorem commandTable_z : ∀ row ∈ commandTable, row.1.extractLsb' 8 24 = 0#24 := by decide

theorem decodeCommand_of_z_ne {w : Word} (h : w.extractLsb' 8 24 ≠ 0#24) :
    decodeCommand w = .error (.illegalCommand w) := by
  have hnone : commandTable.find? (fun row => row.1 == w) = none := by
    rw [List.find?_eq_none]
    intro row hrow heq
    exact h (beq_iff_eq.mp heq ▸ commandTable_z row hrow)
  rw [decodeCommand, hnone]

/-- R101 for the words with `Z` = 0: the sixteen opcodes with the sixteen values of `M`. -/
theorem decodeCommand_commandWord_illegal_iff (op m : BitVec 4) :
    (op ∉ [1#4, 2#4, 3#4, 4#4, 5#4, 15#4] ∨ (op ∈ [1#4, 3#4, 4#4, 5#4, 15#4] ∧ m ≠ 0#4) ∨
        (op = 2#4 ∧ m ∉ [0#4, 1#4, 2#4, 4#4, 7#4, 8#4])) ↔
      decodeCommand (commandWord op m) = .error (.illegalCommand (commandWord op m)) := by
  revert op m
  decide

/-- Settles O9: the table has no word with `Z` ≠ 0, and the others are their fields `OP` and `M`. -/
theorem illegalWordsByField : Obligations.IllegalWordsByField := by
  intro w s hs
  refine ⟨?_, fun h => ?_⟩
  · by_cases hz : w.extractLsb' 8 24 = 0#24
    · have hfields := decodeCommand_commandWord_illegal_iff (w.extractLsb' 4 4) (w.extractLsb' 0 4)
      rw [← eq_commandWord hz] at hfields
      simpa only [hz, decode_write_cmd, ne_eq, not_true_eq_false, false_or] using hfields
    · exact ⟨fun _ => decodeCommand_of_z_ne hz, fun _ => .inl hz⟩
  · rw [serveTxn, h]
    exact whenRunning_running hs _

end Sys2Proof
end

section
/-! What `STATUS`, `MODE` and `VER` read as (30_encoding.md R97). -/

namespace Sys2Proof.Machine

/-- The invariant ties the two fields of `STATUS`: no fault, or halted with a cause. -/
theorem State.Inv.status_cases {s : State} (h : s.Inv) :
    s.status = { halt := false, cause := none } ∨ ∃ c, s.status = { halt := true, cause := some c } := by
  obtain ⟨-, hhalt, -, -⟩ := h
  rcases hst : s.status with ⟨halt, cause⟩
  rw [hst] at hhalt
  cases cause with
  | none => exact .inl (by simpa using hhalt)
  | some c => exact .inr ⟨c, by simpa using hhalt⟩

theorem statusBits_halt (s : State) : s.statusBits.getLsbD 0 = s.status.halt := by
  rw [State.statusBits, BitVec.getLsbD_append]
  simp

theorem statusBits_cause (s : State) : s.statusBits.extractLsb' 4 4 = s.status.causeBits := by
  rw [State.statusBits, BitVec.extractLsb'_append_eq_of_le (by decide), BitVec.extractLsb'_append_eq_of_le (by decide)]
  exact BitVec.extractLsb'_append_eq_right

theorem statusBits_mem {s : State} (h : s.Inv) :
    s.statusBits ∈ [0x00#32, 0x11#32, 0x21#32, 0x31#32, 0x41#32, 0x51#32] := by
  rcases h.status_cases with hst | ⟨c, hst⟩
  · rw [State.statusBits, hst]
    decide
  · rw [State.statusBits, hst]
    cases c <;> decide

theorem modeBits_mem (s : State) : s.modeBits.setWidth 32 ∈ [0#32, 1#32, 2#32, 4#32, 7#32, 8#32] := by
  rw [State.modeBits]
  rcases s.mode with _ | m
  · decide
  · cases m <;> decide

/-- Settles O42: the three reads reply their register's word, and a word's fields are the register's. -/
theorem statusModeVerReadValues : Obligations.StatusModeVerReadValues := by
  intro s hs
  refine ⟨⟨_, exec_readInstr .status s, statusBits_mem hs, statusBits_halt s, ?_⟩,
    ⟨_, exec_readInstr .mode s, modeBits_mem s, ?_⟩, _, exec_readInstr .ver s, rfl⟩
  · rw [← causeBits_toNat, ← statusBits_cause]
    rfl
  · rw [← modeBits_toNat]
    exact BitVec.toNat_setWidth_of_le (by decide)

end Sys2Proof.Machine
end

section
/-! The model's selector and version lookup against the source's functions (40_mode_selector.md R120, R121,
43_version_estimator.md R181, R182), for any tables of 00_scope.md R8. -/

namespace Sys2Proof.Machine

/-! ### The selector -/

/-- One pass tests the four classes on every element at once (R121). -/
theorem foldl_classStep (p : Config.Params) (cs : List Elem) (a : ClassAcc) :
    cs.foldl (classStep p) a =
      { allD := a.allD && cs.all isDigit
        allA := a.allA && cs.all isAlnum
        allK := a.allK && cs.all (isKanji p)
        allS := a.allS && cs.all isScalar } := by
  induction cs generalizing a with
  | nil => simp
  | cons c cs ih => simp [ih, classStep, Bool.and_assoc]

/-- The selector is the source's `select_mode` (R120). -/
theorem selectMode_eq_source (p : Config.Params) (payload : List Elem) :
    selectMode p payload = Source.selectMode p payload := by
  cases payload with
  | nil => rfl
  | cons c cs =>
    rw [selectMode, foldl_classStep, chooseMode, Source.selectMode, if_neg (List.cons_ne_nil c cs)]
    simp only [Bool.true_and, List.all_eq_true, isDigit_iff, isAlnum_iff, isKanji_iff, isScalar_iff, decide_eq_true_eq]

/-! ### The version lookup -/

/-- A scan that keeps the index of the last match finds the only index that can match, if the scan meets it. -/
theorem foldl_keep_match {P : Nat → Prop} [DecidablePred P] {k : Nat} (l : List Nat) (v : Nat)
    (h : ∀ i ∈ l, P i ↔ i = k) : l.foldl (fun v i => if P i then i else v) v = if k ∈ l then k else v := by
  induction l generalizing v with
  | nil => rfl
  | cons a l ih =>
    obtain ⟨ha, hl⟩ := List.forall_mem_cons.mp h
    rw [List.foldl_cons, ih _ hl]
    by_cases hak : a = k
    · subst hak
      simp [ha.mpr rfl]
    · simp [ha, hak, Ne.symm hak]

/-- A scan that keeps the index of the last match ends in its start value or in an index it met. -/
theorem foldl_keep_match_mem {P : Nat → Prop} [DecidablePred P] (l : List Nat) (v : Nat) :
    l.foldl (fun v i => if P i then i else v) v ∈ v :: l := by
  induction l generalizing v with
  | nil => exact List.mem_singleton_self v
  | cons a l ih =>
    rw [List.foldl_cons]
    split
    · exact List.mem_cons_of_mem v (ih a)
    · exact List.cons_subset_cons v (List.subset_cons_self a l) (ih v)

/-- A row number fits `VIDX` (R26). -/
theorem versionRow_lt (p : Config.Params) (c : Nat) : versionRow p c < 2 ^ 4 := by
  rcases List.mem_cons.mp (foldl_keep_match_mem (P := fun i => vtLo p i ≤ c ∧ c ≤ vtHi p i) (List.range' 1 15) 0) with
    hzero | hrow
  · rw [versionRow, hzero]
    decide
  · exact (List.mem_range'_1.mp hrow).2

/-- In a strictly rising list the numbers below `c` are the first ones. -/
theorem getElem_lt_iff_lt_countP {bs : List Nat} (h : bs.Pairwise (· < ·)) (c j : Nat) (hj : j < bs.length) :
    bs[j] < c ↔ j < bs.countP (fun b => decide (b < c)) := by
  induction bs generalizing j with
  | nil => exact absurd hj (Nat.not_lt_zero j)
  | cons b bs ih =>
    obtain ⟨hb, hbs⟩ := List.pairwise_cons.mp h
    by_cases hbc : b < c
    · rw [List.countP_cons_of_pos (by simpa using hbc)]
      cases j with
      | zero => simpa using hbc
      | succ j => simpa using ih hbs j (by simpa using hj)
    · have hle : ∀ x ∈ b :: bs, ¬ x < c := List.forall_mem_cons.mpr ⟨hbc, fun x hx => by have := hb x hx; omega⟩
      have hzero : (b :: bs).countP (fun b => decide (b < c)) = 0 := List.countP_eq_zero.mpr (by simpa using hle)
      simpa [hzero] using hle _ (List.getElem_mem hj)

section

variable {p : Config.Params} (h : p.admissible = true)

include h

theorem vtHi_succ (j : Nat) (hj : j < (Source.upperBounds p).length) :
    vtHi p (j + 1) = (Source.upperBounds p)[j] := by
  have hmid : p.vtMid.length = 11 := by simpa [Source.upperBounds] using (upperBounds_pairwise h).2
  match j with
  | 0 => rfl
  | 1 => rfl
  | k + 2 =>
    have hk : k < 13 := by simp [Source.upperBounds, hmid] at hj; omega
    by_cases hlow : k < 11
    · simp [vtHi, Source.upperBounds, hmid, hlow]
    · obtain rfl | rfl : k = 11 ∨ k = 12 := by omega
      · simp [vtHi, Source.upperBounds, hmid]
      · simp [vtHi, Source.upperBounds, hmid]

/-- The row that holds a count `c` of 1 or more is the one after the rows that end below `c`. -/
theorem row_holds_iff {c i : Nat} (hc : c ≠ 0) (hi : i ∈ List.range' 1 15) :
    (vtLo p i ≤ c ∧ c ≤ vtHi p i) ↔ i = (Source.upperBounds p).countP (fun b => decide (b < c)) + 1 := by
  obtain ⟨hpw, hlen⟩ := upperBounds_pairwise h
  obtain ⟨hi1, hi15⟩ : 1 ≤ i ∧ i ≤ 15 := by rw [List.mem_range'_1] at hi; omega
  obtain ⟨j, rfl⟩ := Nat.exists_eq_add_of_le' hi1
  have hhi := getElem_lt_iff_lt_countP hpw c j (by omega)
  rw [← vtHi_succ h] at hhi
  cases j with
  | zero =>
    have hlo : vtLo p (0 + 1) = 1 := rfl
    omega
  | succ j =>
    have hlo := getElem_lt_iff_lt_countP hpw c j (by omega)
    rw [← vtHi_succ h] at hlo
    have : vtLo p (j + 1 + 1) = vtHi p (j + 1) + 1 := by simp [vtLo]
    omega

/-- The lookup is the source's `estimate_version` (R181). -/
theorem versionRow_eq_source (c : Nat) : versionRow p c = Source.versionIndex p c := by
  obtain ⟨hpw, hlen⟩ := upperBounds_pairwise h
  by_cases hc : c = 0
  · have hnone : ∀ i ∈ List.range' 1 15, (vtLo p i ≤ c ∧ c ≤ vtHi p i) ↔ i = 0 := by
      intro i hi
      rw [List.mem_range'_1] at hi
      have hlo : 1 ≤ vtLo p i := by rw [vtLo]; split <;> omega
      omega
    rw [versionRow, foldl_keep_match _ _ hnone, ite_self, Source.versionIndex, if_pos (.inl hc)]
  · have hlast := getElem_lt_iff_lt_countP hpw c 14 (by omega)
    rw [← vtHi_succ h, show vtHi p (14 + 1) = 480 from rfl] at hlast
    have hle := hlen ▸ List.countP_le_length (p := fun b => decide (b < c)) (l := Source.upperBounds p)
    rw [versionRow, foldl_keep_match _ _ fun _ => row_holds_iff h hc, Source.versionIndex]
    simp only [List.mem_range'_1, hc, false_or]
    split_ifs <;> omega

end

end Sys2Proof.Machine
end

section
/-! The pipeline `SELMODE; ENC.S; TOBITS; ESTVER` (44_control_and_host.md section 5): what each of its commands answers in
a running state, and that the codewords, the bit string and the version row are the source's. -/

namespace Sys2Proof.Machine

/-! ### The source's codewords fit their buffer's width -/

/-- Every payload codeword of a mappable element is a byte (R144 to R148). -/
theorem payloadPart_lt {p : Config.Params} {m : Mode} {cs : List Elem} (h : ∀ c ∈ cs, Source.Mappable p m c) :
    ∀ v ∈ Source.payloadPart p m cs, v < 256 := by
  intro v hv
  cases m
  case numeric =>
    obtain ⟨c, -, hc⟩ := List.mem_filterMap.mp hv
    rw [Source.digitValue] at hc
    split at hc <;> cases hc
    omega
  case alphanumeric =>
    obtain ⟨c, -, hc⟩ := List.mem_filterMap.mp hv
    rw [Source.alnumValue] at hc
    split_ifs at hc <;> cases hc <;> omega
  case byte =>
    obtain ⟨c, hc, rfl⟩ := List.mem_map.mp hv
    exact Nat.lt_succ_of_le ((h c hc).1 rfl)
  case kanji =>
    obtain ⟨c, -, hc⟩ := List.mem_flatMap.mp hv
    rcases List.mem_pair.mp hc with rfl | rfl
    · decide
    · exact BitVec.isLt _
  case eci => cases hv

theorem countPart_lt (m : Mode) {n : Nat} (h : n ≤ Config.maxLen) : ∀ v ∈ Source.countPart m n, v < 2 ^ 16 := by
  have hn : n ≤ 65535 := h
  cases m
  case eci => exact List.forall_mem_nil _
  all_goals
    simp only [Source.countPart, List.mem_cons, List.not_mem_nil, or_false, forall_eq_or_imp, forall_eq]
    omega

theorem designatorPart_lt (e : Eci) : ∀ v ∈ Source.designatorPart e, v < 2 ^ 16 := by
  have hval : e.val.toNat < 2 ^ 24 := e.val.isLt
  rw [Source.designatorPart]
  split
  · simp only [List.mem_cons, List.not_mem_nil, or_false, forall_eq_or_imp, forall_eq]
    omega
  · exact List.forall_mem_nil _

/-- `CWBUF` loses nothing of the source's codewords (R94). -/
theorem segment_toNat {m : Mode} {s : State} (hlen : s.pbuf.length ≤ Config.maxLen)
    (hall : ∀ c ∈ s.pbuf, Source.Mappable Config.params m c) :
    (segment m s).map BitVec.toNat = Source.encode Config.params m s.pbuf s.eci := by
  have hlt : ∀ v ∈ Source.encode Config.params m s.pbuf s.eci, v < 2 ^ 16 := by
    rw [Source.encode, List.forall_mem_cons, List.forall_mem_append, List.forall_mem_append]
    have hind : m.indicator.toNat < 2 ^ 4 := m.indicator.isLt
    exact ⟨by omega, ⟨countPart_lt m hlen, designatorPart_lt s.eci⟩,
      fun v hv => (payloadPart_lt hall v hv).trans (by decide)⟩
  rw [segment, List.map_map]
  exact (List.map_congr_left fun v hv => Nat.mod_eq_of_lt (hlt v hv)).trans (List.map_id _)

/-! ### The bit string -/

/-- The bit string is the source's eight bits of each group, most significant first (R25, R170). -/
theorem bits_eq_toBits (s : State) : s.bits = Source.toBits (s.obuf.map BitVec.toNat) := by
  rw [State.bits]
  induction s.obuf with
  | nil => rfl
  | cons g gs ih =>
    have hshift : ∀ k, (8 + k) / 8 = k / 8 + 1 ∧ (8 + k) % 8 = k % 8 := fun k => by omega
    rw [List.length_cons, Nat.mul_succ, Nat.add_comm, List.range_add, List.map_append, List.map_map, List.map_cons]
    refine congrArg₂ (· ++ ·) (Eq.refl (Source.toBits [g.toNat])) (Eq.trans ?_ ih)
    exact List.map_congr_left fun k _ => by simp [hshift k]

/-- The low byte of a codeword below 256 is the codeword. -/
theorem groups_toNat {cw : List Codeword} (h : ∀ w ∈ cw, FitsGroup w) :
    (cw.map (BitVec.setWidth 8)).map BitVec.toNat = cw.map BitVec.toNat := by
  rw [List.map_map]
  exact List.map_congr_left fun w hw => Nat.mod_eq_of_lt (h w hw)

/-! ### The commands in a running state -/

theorem FirstFailing.mem {α : Type} {ok : α → Prop} {xs : List α} {k : Nat} {x : α} (h : FirstFailing ok xs k x) :
    x ∈ xs := List.mem_of_getElem? h.at_index

theorem exec_selmode {s : State} (hs : s.Running) :
    exec .selmode s = .next (writeMode (Source.selectMode Config.params s.pbuf) s) := by
  rw [← selectMode_eq_source]
  exact whenRunning_running hs _

/-- `ENC.S` with a mode selected leaves the source's segment, or raises MAP (R155). -/
theorem exec_encS_cases {s : State} {m : Mode} (hs : s.Running) (hm : s.mode = some m) :
    ((∀ c ∈ s.pbuf, Source.Mappable Config.params m c) ∧ exec .encS s = .next { s with cwbuf := segment m s }) ∨
      ∃ k e, FirstFailing (Source.Mappable Config.params m) s.pbuf k e ∧
        exec .encS s = .next (enterFault .map (BitVec.ofNat 32 k) s) := by
  have hexec : exec .encS s = conclude (encodeFrame Config.params m s) := by
    refine (whenRunning_running hs _).trans ?_
    rw [encodeSelected, hm]
  rcases encodeFrame_outcome m s with ⟨hall, hok⟩ | ⟨k, e, hfirst, herr⟩
  · exact .inl ⟨hall, by rw [hexec, hok, conclude_ok]⟩
  · exact .inr ⟨k, e, hfirst, by rw [hexec, herr, conclude_error]⟩

/-- `TOBITS` leaves one group per codeword, or raises OVF (R171). -/
theorem exec_tobits_cases {s : State} (hs : s.Running) :
    ((∀ w ∈ s.cwbuf, FitsGroup w) ∧ exec .tobits s = .next { s with obuf := s.cwbuf.map (BitVec.setWidth 8) }) ∨
      ∃ k w, FirstFailing FitsGroup s.cwbuf k w ∧
        exec .tobits s = .next (enterFault .ovf (BitVec.ofNat 32 k) s) := by
  have hexec : exec .tobits s = conclude (serialize s) := whenRunning_running hs _
  rcases serialize_outcome s with ⟨hall, hok⟩ | ⟨k, w, hfirst, herr⟩
  · exact .inl ⟨hall, by rw [hexec, hok, conclude_ok]⟩
  · exact .inr ⟨k, w, hfirst, by rw [hexec, herr, conclude_error]⟩

/-- `ESTVER` writes the source's row: the chip's tables are admissible, and a row number fits `VIDX` (R182). -/
theorem exec_estver {s : State} (hs : s.Running) : ∃ v : BitVec 4, exec .estver s = .next (writeVidx v s) ∧
    v.toNat = Source.versionIndex Config.params s.cwbuf.length :=
  ⟨_, whenRunning_running hs _, (Nat.mod_eq_of_lt (versionRow_lt Config.params s.cwbuf.length)).trans
    (versionRow_eq_source Config.params_admissible _)⟩

theorem exec_tobits_of_halted {s : State} (h : s.Halted) : exec .tobits s = .next s := whenRunning_halted h _

theorem exec_estver_of_halted {s : State} (h : s.Halted) : exec .estver s = .next s := whenRunning_halted h _

/-- Settles O51: either `ENC.S` meets an element that is not mappable, or `TOBITS` a codeword of 256 or more, or neither
does; after a fault the commands that follow are ignored. -/
theorem pipelineComputesSource : Obligations.PipelineComputesSource := by
  intro s m cw hs hwf hm hcw
  have hsel : exec .selmode s = .next (writeMode m s) := hm ▸ exec_selmode hs
  obtain ⟨hlen, -, -⟩ := hwf
  rcases exec_encS_cases (s := writeMode m s) hs (writeMode_mode m s) with ⟨hall, henc⟩ | ⟨k, e, hfirst, henc⟩
  · have hcwbuf : (segment m (writeMode m s)).map BitVec.toNat = cw := (segment_toNat hlen hall).trans hcw.symm
    rcases exec_tobits_cases (s := { writeMode m s with cwbuf := segment m (writeMode m s) }) hs with
      ⟨hfits, htob⟩ | ⟨j, w, hfirst, htob⟩
    · obtain ⟨v, hest, hv⟩ := exec_estver (s := { writeMode m s with
        cwbuf := segment m (writeMode m s), obuf := (segment m (writeMode m s)).map (BitVec.setWidth 8) }) hs
      refine ⟨_, _, _, _, hsel, henc, htob, hest, fun _ _ => ⟨rfl, hcwbuf, ?_, ?_, rfl⟩, ?_, ?_⟩
      · rw [bits_eq_toBits, ← hcwbuf]
        exact congrArg Source.toBits (groups_toNat hfits)
      · rw [← hcwbuf, List.length_map]
        exact hv
      · rintro ⟨c, hc, hbad⟩
        exact absurd (hall c hc) hbad
      · rintro - ⟨v, hv, hbig⟩
        rw [← hcwbuf] at hv
        obtain ⟨w, hw, rfl⟩ := List.mem_map.mp hv
        exact absurd (hfits w hw) (Nat.not_lt.mpr hbig)
    · refine ⟨_, _, _, _, hsel, henc, htob, exec_estver_of_halted rfl, fun _ hsmall => ?_, ?_,
        fun _ _ => ⟨rfl, hcwbuf, rfl⟩⟩
      · rw [← hcwbuf] at hsmall
        exact absurd (hsmall _ (List.mem_map_of_mem hfirst.mem)) hfirst.fails
      · rintro ⟨c, hc, hbad⟩
        exact absurd (hall c hc) hbad
  · exact ⟨_, _, _, _, hsel, henc, exec_tobits_of_halted rfl, exec_estver_of_halted rfl,
      fun hmap => absurd (hmap e hfirst.mem) hfirst.fails, fun _ => ⟨rfl, rfl⟩,
      fun hmap => absurd (hmap e hfirst.mem) hfirst.fails⟩

end Sys2Proof.Machine
end

section
/-! `SELMODE` (40_mode_selector.md): its result and frame (R120, R121), which payloads give which mode, and that only the
set of element values counts (section 4). -/

namespace Sys2Proof.Machine

/-! ### The classes of an element (00_scope.md R8, R11) -/

theorem alnum_lt_0x80 {c : Elem} (h : Source.Alnum c) : c.toNat < 0x80 := by
  rcases h with h | h | h <;> omega

theorem scalar_of_alnum {c : Elem} (h : Source.Alnum c) : Source.Scalar c :=
  .inl ((alnum_lt_0x80 h).le.trans (by decide))

theorem not_alnum_of_kanji {p : Config.Params} (h : p.admissible = true) {c : Elem} (hc : Source.Kanji p c) :
    ¬ Source.Alnum c := fun ha =>
  absurd (kanji_scalar_nonAscii h hc).2 (Nat.not_le.mpr (alnum_lt_0x80 ha))

theorem alnum_not_digit_iff {c : Elem} (h : Source.Alnum c) : ¬ Source.Digit c ↔ Source.Upper c ∨ Source.Lower c :=
  ⟨h.resolve_left, fun hletter => by omega⟩

/-! ### The source's chain over a payload that is not empty -/

section

variable {p : Config.Params} {cs : List Elem} (hne : cs ≠ [])

include hne

/-- R120's chain of class tests, each as a statement about every element. -/
theorem source_selectMode_of_ne_nil :
    Source.selectMode p cs =
      if ∀ c ∈ cs, Source.Digit c then .numeric
      else if ∀ c ∈ cs, Source.Alnum c then .alphanumeric
      else if ∀ c ∈ cs, Source.Kanji p c then .kanji
      else if ∀ c ∈ cs, Source.Scalar c then .byte
      else .eci := by
  simp only [Source.selectMode, if_neg hne, List.all_eq_true, decide_eq_true_eq]

/-- Two payloads with the same elements pass the same class tests. -/
theorem source_selectMode_congr {ds : List Elem} (hds : ds ≠ []) (h : ∀ c, c ∈ cs ↔ c ∈ ds) :
    Source.selectMode p cs = Source.selectMode p ds := by
  rw [source_selectMode_of_ne_nil hne, source_selectMode_of_ne_nil hds]
  simp only [h]

theorem source_selectMode_eq_numeric_iff : Source.selectMode p cs = .numeric ↔ ∀ c ∈ cs, Source.Digit c := by
  rw [source_selectMode_of_ne_nil hne]
  split_ifs with hd
  · exact iff_of_true rfl hd
  all_goals exact iff_of_false nofun hd

theorem source_selectMode_eq_alphanumeric_iff :
    Source.selectMode p cs = .alphanumeric ↔ (∀ c ∈ cs, Source.Alnum c) ∧ ¬ ∀ c ∈ cs, Source.Digit c := by
  rw [source_selectMode_of_ne_nil hne]
  split_ifs with hd ha
  · exact iff_of_false nofun fun h => h.2 hd
  · exact iff_of_true rfl ⟨ha, hd⟩
  all_goals exact iff_of_false nofun fun h => ha h.1

theorem source_selectMode_eq_byte_iff :
    Source.selectMode p cs = .byte ↔
      (∀ c ∈ cs, Source.Scalar c) ∧ (¬ ∀ c ∈ cs, Source.Alnum c) ∧ ¬ ∀ c ∈ cs, Source.Kanji p c := by
  rw [source_selectMode_of_ne_nil hne]
  split_ifs with hd ha hk hs
  · exact iff_of_false nofun fun h => h.2.1 fun c hc => .inl (hd c hc)
  · exact iff_of_false nofun fun h => h.2.1 ha
  · exact iff_of_false nofun fun h => h.2.2 hk
  · exact iff_of_true rfl ⟨hs, ha, hk⟩
  · exact iff_of_false nofun fun h => hs h.1

/-! For admissible tables `KANJI_SET` lies in the scalar values and apart from the alphanumeric ones. -/

variable (hp : p.admissible = true)

include hp

/-- R120 tests Kanji third, but what passes it can pass neither test before. -/
theorem source_selectMode_eq_kanji_iff : Source.selectMode p cs = .kanji ↔ ∀ c ∈ cs, Source.Kanji p c := by
  have hapart : (∀ c ∈ cs, Source.Alnum c) → ¬ ∀ c ∈ cs, Source.Kanji p c := fun ha hk => by
    obtain ⟨c, hc⟩ := List.exists_mem_of_ne_nil cs hne
    exact not_alnum_of_kanji hp (hk c hc) (ha c hc)
  rw [source_selectMode_of_ne_nil hne]
  split_ifs with hd ha hk
  · exact iff_of_false nofun (hapart fun c hc => .inl (hd c hc))
  · exact iff_of_false nofun (hapart ha)
  · exact iff_of_true rfl hk
  all_goals exact iff_of_false nofun hk

/-- R120 tests the scalar values last, and what passes a test before has scalar values only. -/
theorem source_selectMode_eq_eci_iff : Source.selectMode p cs = .eci ↔ ¬ ∀ c ∈ cs, Source.Scalar c := by
  rw [source_selectMode_of_ne_nil hne]
  split_ifs with hd ha hk hs
  · exact iff_of_false nofun (not_not_intro fun c hc => scalar_of_alnum (.inl (hd c hc)))
  · exact iff_of_false nofun (not_not_intro fun c hc => scalar_of_alnum (ha c hc))
  · exact iff_of_false nofun (not_not_intro fun c hc => (kanji_scalar_nonAscii hp (hk c hc)).1)
  · exact iff_of_false nofun (not_not_intro hs)
  · exact iff_of_true rfl hs

end

/-! ### The codes of `MODE` (10_state.md R23) -/

@[simp] theorem writeMode_modeBits (m : Mode) (s : State) : (writeMode m s).modeBits = m.indicator := rfl

theorem indicator_ne_zero (m : Mode) : m.indicator ≠ 0#4 := by
  cases m <;> decide

theorem indicator_inj {m n : Mode} : m.indicator = n.indicator ↔ m = n := by
  cases m <;> cases n <;> decide

/-! ### The statements -/

/-- Settles O12: in a running state the selector is the source's, and it writes `MODE` only. -/
theorem selmodeWritesSelectedMode : Obligations.SelmodeWritesSelectedMode :=
  ⟨rfl, fun _ => ⟨exec_selmode, fun h => whenRunning_halted h _⟩⟩

/-- Settles O13: a code of `MODE` stands for one mode, and each mode for one class of payloads. -/
theorem selmodeCharacterised : Obligations.SelmodeCharacterised := by
  intro s hs hne
  have hcode (n : Mode) : (writeMode (Source.selectMode Config.params s.pbuf) s).modeBits = n.indicator ↔
      Source.selectMode Config.params s.pbuf = n := by
    rw [writeMode_modeBits, indicator_inj]
  have hkanji := (hcode .kanji).trans (source_selectMode_eq_kanji_iff hne Config.params_admissible)
  have hbyte := (hcode .byte).trans (source_selectMode_eq_byte_iff hne)
  have heci := (hcode .eci).trans (source_selectMode_eq_eci_iff hne Config.params_admissible)
  simp only [not_forall, exists_prop] at hbyte heci
  refine ⟨_, exec_selmode hs, (hcode .numeric).trans (source_selectMode_eq_numeric_iff hne), ?_, hkanji,
    fun h c hc => (kanji_scalar_nonAscii Config.params_admissible (hkanji.mp h c hc)).2, hbyte, heci,
    indicator_ne_zero _⟩
  refine (hcode .alphanumeric).trans ((source_selectMode_eq_alphanumeric_iff hne).trans (and_congr_right fun ha => ?_))
  simp only [not_forall, exists_prop]
  exact exists_congr fun c => and_congr_right fun hc => alnum_not_digit_iff (ha c hc)

/-- Settles O14: both machines answer the source's mode, and every class test asks about the elements only. -/
theorem selmodeDependsOnElementSet : Obligations.SelmodeDependsOnElementSet := by
  intro s u s' u' hs hu hsne hune hmem hs' hu'
  cases (exec_selmode hs).symm.trans hs'
  cases (exec_selmode hu).symm.trans hu'
  exact congrArg some (source_selectMode_congr hsne hune hmem)

/-- Settles O34: the pass over the payload is the chain of class tests, and the scan of the rows is the closed form. -/
theorem selectAndEstimateForEveryTable : Obligations.SelectAndEstimateForEveryTable :=
  ⟨selectMode_eq_source, fun _ c h => versionRow_eq_source h c⟩

end Sys2Proof.Machine
end

section
/-! The segment encoder (41_segment_encoder.md): its frame for any tables (R140, R8), the result and the MAP fault of each
encode (R150 to R155), what an encode depends on (R159), and the length and the large codewords of a segment (section 4). -/

namespace Sys2Proof.Machine

/-! ### Mappable elements, mode by mode (R144 to R149) -/

theorem mappable_numeric (p : Config.Params) (c : Elem) : Source.Mappable p .numeric c := ⟨nofun, nofun⟩

theorem mappable_alphanumeric (p : Config.Params) (c : Elem) : Source.Mappable p .alphanumeric c := ⟨nofun, nofun⟩

theorem mappable_eci (p : Config.Params) (c : Elem) : Source.Mappable p .eci c := ⟨nofun, nofun⟩

theorem mappable_byte_iff {p : Config.Params} {c : Elem} : Source.Mappable p .byte c ↔ c.toNat ≤ 0xFF :=
  ⟨fun h => h.1 rfl, fun h => ⟨fun _ => h, nofun⟩⟩

theorem mappable_kanji_iff {p : Config.Params} {c : Elem} : Source.Mappable p .kanji c ↔ p.kanjiLead c ≠ none :=
  ⟨fun h => h.2 rfl, fun h => ⟨nofun, fun _ => h⟩⟩

/-- A scan has one element to stop at. -/
theorem FirstFailing.index_unique {α : Type} {ok : α → Prop} {xs : List α} {k j : Nat} {x y : α}
    (hx : FirstFailing ok xs k x) (hy : FirstFailing ok xs j y) : k = j := by
  rcases Nat.lt_trichotomy k j with hlt | heq | hgt
  · exact absurd (hy.earlier k x hlt hx.at_index) hx.fails
  · exact heq
  · exact absurd (hx.earlier j y hgt hy.at_index) hy.fails

/-! ### The frame for any tables -/

section

variable {p : Config.Params} {m : Mode} {s : State}

theorem encodeFrame_of_mappable (h : ∀ c ∈ s.pbuf, Source.Mappable p m c) :
    encodeFrame p m s = .ok { s with cwbuf := (Source.encode p m s.pbuf s.eci).map (BitVec.ofNat 16) } := by
  rw [encodeFrame, emitHeader_eq]
  rcases payLoop_outcome p m 0 s.pbuf (emitAll _ (clearCodewords s)) with ⟨-, hok⟩ | ⟨_, e, hfirst, -⟩
  · rw [hok, emitAll_emitAll]
    rfl
  · exact absurd (h e hfirst.mem) hfirst.fails

theorem encodeFrame_of_firstFailing {k : Nat} {e : Elem} (h : FirstFailing (Source.Mappable p m) s.pbuf k e) :
    encodeFrame p m s = .error (enterFault .map (BitVec.ofNat 32 k) s) := by
  rw [encodeFrame, emitHeader_eq]
  rcases payLoop_outcome p m 0 s.pbuf (emitAll _ (clearCodewords s)) with ⟨hall, -⟩ | ⟨j, d, hfirst, herr⟩
  · exact absurd (hall e h.mem) h.fails
  · rw [herr, enterFault_map_emitAll, Nat.zero_add, hfirst.index_unique h]
    rfl

/-- 16 bits lose nothing of the source's codewords when they lose nothing of the count (R94). -/
theorem codewords_toNat {cs : List Elem} (e : Eci) (hcount : ∀ v ∈ Source.countPart m cs.length, v < 2 ^ 16)
    (hall : ∀ c ∈ cs, Source.Mappable p m c) :
    ((Source.encode p m cs e).map (BitVec.ofNat 16)).map BitVec.toNat = Source.encode p m cs e := by
  have hlt : ∀ v ∈ Source.encode p m cs e, v < 2 ^ 16 := by
    rw [Source.encode, List.forall_mem_cons, List.forall_mem_append, List.forall_mem_append]
    exact ⟨m.indicator.isLt.trans (by decide), ⟨hcount, designatorPart_lt e⟩,
      fun v hv => (payloadPart_lt hall v hv).trans (by decide)⟩
  rw [List.map_map]
  exact (List.map_congr_left fun v hv => Nat.mod_eq_of_lt (hlt v hv)).trans (List.map_id _)

end

/-- Settles O26: the header and the payload loop emit the source's codewords, or the loop stops at the first element that
is not mappable. -/
theorem encodeForEveryTable : Obligations.EncodeForEveryTable := fun _ m s ⟨hlen, _, _⟩ =>
  ⟨fun hall => ⟨_, encodeFrame_of_mappable hall, codewords_toNat s.eci (countPart_lt m hlen) hall, rfl⟩,
    fun _ _ hat hfails hearlier => encodeFrame_of_firstFailing ⟨hat, hfails, hearlier⟩⟩

/-! ### The six encode commands -/

section

variable {s t : State} {i : Instr} {m : Mode}

theorem exec_encS_of_mode (hm : s.mode = some m) : exec .encS s = exec (encodeCommand m) s := by
  change whenRunning s (conclude (encodeSelected Config.params s)) = _
  rw [encodeSelected, hm]
  cases m <;> rfl

/-- While running, an encode of mode `m` is the frame for `m` under the chip's tables. -/
theorem exec_of_encodes (hs : s.Running) (hi : Encodes s i m) :
    exec i s = conclude (encodeFrame Config.params m s) := by
  have hcommand : exec (encodeCommand m) s = conclude (encodeFrame Config.params m s) := by
    rw [← whenRunning_running hs (conclude _)]
    cases m <;> rfl
  rcases hi with rfl | ⟨rfl, hm⟩
  · exact hcommand
  · rw [exec_encS_of_mode hm, hcommand]

theorem exec_of_mappable (hs : s.Running) (hi : Encodes s i m)
    (hall : ∀ c ∈ s.pbuf, Source.Mappable Config.params m c) :
    exec i s = .next { s with cwbuf := segment m s } := by
  rw [exec_of_encodes hs hi, encodeFrame_of_mappable hall]
  rfl

theorem exec_of_firstFailing (hs : s.Running) (hi : Encodes s i m) {k : Nat} {e : Elem}
    (hfirst : FirstFailing (Source.Mappable Config.params m) s.pbuf k e) :
    exec i s = .next (enterFault .map (BitVec.ofNat 32 k) s) := by
  rw [exec_of_encodes hs hi, encodeFrame_of_firstFailing hfirst, conclude_error]

theorem exec_encodes_cases (hs : s.Running) (hi : Encodes s i m) :
    ((∀ c ∈ s.pbuf, Source.Mappable Config.params m c) ∧ exec i s = .next { s with cwbuf := segment m s }) ∨
      ∃ k e, FirstFailing (Source.Mappable Config.params m) s.pbuf k e ∧
        exec i s = .next (enterFault .map (BitVec.ofNat 32 k) s) := by
  rcases encodeFrame_outcome m s with ⟨hall, -⟩ | ⟨k, e, hfirst, -⟩
  · exact .inl ⟨hall, exec_of_mappable hs hi hall⟩
  · exact .inr ⟨k, e, hfirst, exec_of_firstFailing hs hi hfirst⟩

/-- An encode that did not fault met mappable elements only, and left their segment. -/
theorem eq_segment_of_encodes (hs : s.Running) (hi : Encodes s i m) (h : exec i s = .next t) (ht : t.Running) :
    (∀ c ∈ s.pbuf, Source.Mappable Config.params m c) ∧ t = { s with cwbuf := segment m s } := by
  rcases exec_encodes_cases hs hi with ⟨hall, hok⟩ | ⟨_, _, -, herr⟩
  · cases hok.symm.trans h
    exact ⟨hall, rfl⟩
  · cases herr.symm.trans h
    cases ht

/-- An encode of mappable elements whose count fits a codeword leaves the source's sequence and changes nothing else. -/
theorem exec_writes_source (hs : s.Running) (hi : Encodes s i m)
    (hcount : ∀ v ∈ Source.countPart m s.pbuf.length, v < 2 ^ 16)
    (hall : ∀ c ∈ s.pbuf, Source.Mappable Config.params m c) :
    ∃ t, exec i s = .next t ∧ t.cwbuf.map BitVec.toNat = Source.encode Config.params m s.pbuf s.eci ∧
      t = { s with cwbuf := t.cwbuf } :=
  ⟨_, exec_of_mappable hs hi hall, codewords_toNat s.eci hcount hall, rfl⟩

end

/-- Settles O15: every element is mappable in Numeric mode. -/
theorem encNumericResult : Obligations.EncNumericResult :=
  ⟨rfl, fun _ hs ⟨hlen, _, _⟩ =>
    exec_writes_source hs (.inl rfl) (countPart_lt .numeric hlen) fun c _ => mappable_numeric _ c⟩

/-- Settles O16: every element is mappable in Alphanumeric mode. -/
theorem encAlphanumericResult : Obligations.EncAlphanumericResult :=
  ⟨rfl, fun _ hs ⟨hlen, _, _⟩ =>
    exec_writes_source hs (.inl rfl) (countPart_lt .alphanumeric hlen) fun c _ => mappable_alphanumeric _ c⟩

/-- Settles O17: an element is mappable in Byte mode when it is at most 0xFF. -/
theorem encByteResult : Obligations.EncByteResult := by
  refine ⟨rfl, fun s hs ⟨hlen, _, _⟩ hall => ?_, fun s i c hs hat hbig hearlier => ?_⟩
  · exact exec_writes_source hs (.inl rfl) (countPart_lt .byte hlen) fun c hc => mappable_byte_iff.mpr (hall c hc)
  · have hfirst : FirstFailing (Source.Mappable Config.params .byte) s.pbuf i c :=
      ⟨hat, fun h => absurd (mappable_byte_iff.mp h) (Nat.not_le.mpr hbig),
        fun j d hj hd => mappable_byte_iff.mpr (hearlier j d hj hd)⟩
    exact exec_of_firstFailing hs (.inl rfl) hfirst

/-- The two count codewords of a Kanji segment give the payload length back (R142). -/
theorem kanji_count_of_codewords {cw : List Codeword} {n : Nat} {rest : List Nat}
    (h : cw.map BitVec.toNat = 8 :: n / 256 :: n % 256 :: rest) :
    (cw.getD 1 0#16).toNat * 256 + (cw.getD 2 0#16).toNat = n := by
  have hget (k : Nat) : (cw.getD k 0#16).toNat = (8 :: n / 256 :: n % 256 :: rest).getD k 0 := by
    rw [← h]
    exact (List.getD_map cw 0#16 BitVec.toNat).symm
  rw [hget 1, hget 2]
  exact Nat.div_add_mod' n 256

/-- The scan of the payload for an element without a lead byte, as a scan for one that is not mappable in Kanji mode. -/
theorem firstFailing_of_findIdx? {p : Config.Params} {cs : List Elem} {i : Nat}
    (h : cs.findIdx? (fun c => (p.kanjiLead c).isNone) = some i) :
    ∃ e, FirstFailing (Source.Mappable p .kanji) cs i e := by
  obtain ⟨hi, hnone, hearlier⟩ := List.findIdx?_eq_some_iff_getElem.mp h
  refine ⟨cs[i], List.getElem?_eq_getElem hi, fun hm => ?_, fun j d hj hd => ?_⟩
  · exact absurd (Option.isNone_iff_eq_none.mp hnone) (mappable_kanji_iff.mp hm)
  · obtain ⟨_, rfl⟩ := List.getElem?_eq_some_iff.mp hd
    exact mappable_kanji_iff.mpr fun hlead => hearlier j hj (Option.isNone_iff_eq_none.mpr hlead)

/-- Settles O18: an element is mappable in Kanji mode when it has a lead byte. -/
theorem encKanjiResult : Obligations.EncKanjiResult := by
  refine ⟨rfl, fun s hs ⟨hlen, _, _⟩ hall => ?_, fun s hs => ?_⟩
  · obtain ⟨t, hexec, hcw, hframe⟩ := exec_writes_source (i := .encK) hs (.inl rfl) (countPart_lt .kanji hlen)
      fun c hc => mappable_kanji_iff.mpr (hall c hc)
    exact ⟨t, hexec, hcw, kanji_count_of_codewords hcw, hframe⟩
  · split
    next hnone =>
      refine ⟨_, exec_of_mappable hs (m := .kanji) (.inl rfl) fun c hc => mappable_kanji_iff.mpr fun hlead => ?_, hs⟩
      simpa [hlead] using List.findIdx?_eq_none_iff.mp hnone c hc
    next i hsome =>
      obtain ⟨e, hfirst⟩ := firstFailing_of_findIdx? hsome
      exact exec_of_firstFailing hs (.inl rfl) hfirst

/-- Settles O19: an ECI segment has no count and no payload codewords, so no bound on the payload is needed. -/
theorem encEciResult : Obligations.EncEciResult := by
  refine ⟨rfl, fun s hs => ?_⟩
  obtain ⟨t, hexec, hcw, hframe⟩ := exec_writes_source (i := .encE) (m := .eci) hs (.inl rfl) (List.forall_mem_nil _)
    fun c _ => mappable_eci _ c
  exact ⟨t, hexec, hcw.trans (congrArg (7 :: ·) (List.append_nil _)), hframe⟩

/-- Settles O20: `ENC.S` runs the body of the selected mode, and no encode is among the writers of `MODE`. -/
theorem encSelectedFollowsMode : Obligations.EncSelectedFollowsMode := by
  refine ⟨rfl, fun s => ⟨fun m => exec_encS_of_mode, fun hs hm => ?_, fun t h => ?_⟩⟩
  · have hbody : encodeSelected Config.params s = .error (enterFault .mode 0#32 s) := by
      rw [encodeSelected, hm]
      rfl
    exact (whenRunning_running hs _).trans (congrArg conclude hbody)
  · by_contra hne
    rcases (exec_effect h).mode_writers hne with hi | hi <;> cases hi

/-- Settles O21: `ENC.S` is an encode of the selected mode. -/
theorem encSelectedResult : Obligations.EncSelectedResult := fun _ m hs ⟨hlen, _, _⟩ hm hall =>
  exec_writes_source hs (.inr ⟨rfl, hm⟩) (countPart_lt m hlen) hall

/-! ### What an encode depends on (R159) -/

section

variable {s u : State} {i : Instr} {m : Mode}

theorem exists_encodes (hi : i ∈ [Instr.encN, .encA, .encB, .encK, .encE, .encS]) (hm : i = .encS → s.mode ≠ none) :
    ∃ m, Encodes s i m := by
  simp only [List.mem_cons, List.not_mem_nil, or_false] at hi
  rcases hi with rfl | rfl | rfl | rfl | rfl | rfl
  · exact ⟨.numeric, .inl rfl⟩
  · exact ⟨.alphanumeric, .inl rfl⟩
  · exact ⟨.byte, .inl rfl⟩
  · exact ⟨.kanji, .inl rfl⟩
  · exact ⟨.eci, .inl rfl⟩
  · obtain ⟨m, hsel⟩ := Option.ne_none_iff_exists'.mp (hm rfl)
    exact ⟨m, .inr ⟨rfl, hsel⟩⟩

theorem Encodes.congr (h : Encodes s i m) (hm : i = .encS → s.mode = u.mode) : Encodes u i m :=
  h.imp_right fun ⟨hi, hsel⟩ => ⟨hi, (hm hi).symm.trans hsel⟩

theorem segment_congr (hp : s.pbuf = u.pbuf) (he : s.eci = u.eci) : segment m s = segment m u := by
  rw [segment, segment, hp, he]

end

/-- Settles O24: the mode and the payload say whether the encode faults, and with the designator what it leaves. -/
theorem encodeIsDeterminedByItsOperands : Obligations.EncodeIsDeterminedByItsOperands := by
  intro s u s' u' i hmem hs hu hp he hm hs' hu'
  obtain ⟨m, his⟩ := exists_encodes hmem fun hi => (hm hi).2
  have hiu : Encodes u i m := his.congr fun hi => (hm hi).1
  rcases exec_encodes_cases hs his with ⟨hall, hok⟩ | ⟨k, e, hfirst, herr⟩
  · cases hok.symm.trans hs'
    cases (exec_of_mappable hu hiu (hp ▸ hall)).symm.trans hu'
    exact ⟨segment_congr hp he, hs.trans hu.symm⟩
  · cases herr.symm.trans hs'
    cases (exec_of_firstFailing hu hiu (hp ▸ hfirst)).symm.trans hu'
    exact ⟨rfl, rfl⟩

/-! ### The length of a segment (section 4) -/

theorem digitValue_isSome (c : Elem) : (Source.digitValue c).isSome = decide (Source.Digit c) := by
  rw [Source.digitValue]
  split_ifs with h <;> simp [h]

theorem alnumValue_isSome (c : Elem) : (Source.alnumValue c).isSome = decide (Source.Alnum c) := by
  rw [Source.alnumValue]
  split_ifs with hd hu hl
  · exact (decide_eq_true (.inl hd)).symm
  · exact (decide_eq_true (.inr (.inl hu))).symm
  · exact (decide_eq_true (.inr (.inr hl))).symm
  · exact (decide_eq_false (by tauto)).symm

/-- An element with a value adds one codeword, any other none. -/
theorem length_filterMap_of_isSome {f : Elem → Option Nat} {q : Elem → Bool} (h : ∀ c, (f c).isSome = q c)
    (cs : List Elem) : (cs.filterMap f).length = (cs.filter q).length := by
  rw [List.length_filterMap_eq_countP, List.countP_eq_length_filter]
  exact congrArg (fun r => (cs.filter r).length) (funext h)

theorem designatorPart_length (e : Eci) : (Source.designatorPart e).length = if e.v then 2 else 0 := by
  rw [Source.designatorPart]
  split <;> rfl

theorem segment_length (m : Mode) (s : State) :
    (segment m s).length =
      1 + (Source.countPart m s.pbuf.length).length + (Source.payloadPart Config.params m s.pbuf).length +
        (if s.eci.v then 2 else 0) := by
  simp only [segment, Source.encode, List.length_map, List.length_cons, List.length_append, designatorPart_length]
  omega

/-- Settles O22: the indicator, the count, the designator and the payload part, each with its length. -/
theorem encodeLength : Obligations.EncodeLength := by
  intro s m t hs ⟨hlen, _, _⟩ h ht
  obtain ⟨-, rfl⟩ := eq_segment_of_encodes hs (.inl rfl) h ht
  refine ⟨(segment_length m s).trans (congrArg (· + _) ?_), ?_, segment_length_le hlen⟩
  · cases m with
    | numeric => exact congrArg (2 + ·) (length_filterMap_of_isSome digitValue_isSome s.pbuf)
    | alphanumeric => exact congrArg (2 + ·) (length_filterMap_of_isSome alnumValue_isSome s.pbuf)
    | byte => exact congrArg (2 + ·) (List.length_map BitVec.toNat)
    | kanji => simp [Source.countPart, Source.payloadPart, Nat.mul_comm]
    | eci => rfl
  · exact Nat.succ_le_succ (Nat.zero_le _)

/-! ### The codewords of 256 or more (section 4) -/

theorem countPart_large_iff (m : Mode) {n : Nat} (h : n ≤ Config.maxLen) :
    (∃ v ∈ Source.countPart m n, 256 ≤ v) ↔
      ((m = .numeric ∨ m = .byte) ∧ 256 ≤ n) ∨ (m = .alphanumeric ∧ 511 ≤ n) := by
  cases m with
  | numeric => simp [Source.countPart]
  | alphanumeric =>
    have hhalf : 256 ≤ (n + 1) / 2 ↔ 511 ≤ n := by omega
    simpa [Source.countPart] using hhalf
  | byte => simp [Source.countPart]
  | kanji =>
    have hhigh : n / 256 < 256 := Nat.div_lt_of_lt_mul (Nat.lt_succ_of_le h)
    have hlow : n % 256 < 256 := Nat.mod_lt n (by decide)
    simp [Source.countPart, Nat.not_le.mpr hhigh, Nat.not_le.mpr hlow]
  | eci => simp [Source.countPart]

theorem designatorPart_large_iff (e : Eci) :
    (∃ v ∈ Source.designatorPart e, 256 ≤ v) ↔ e.v = true ∧ 65536 ≤ e.val.toNat := by
  rw [Source.designatorPart]
  split
  case isTrue hv =>
    simp only [List.mem_cons, List.not_mem_nil, or_false, exists_eq_or_imp, exists_eq_left, hv, true_and]
    omega
  case isFalse hv => simp [hv]

/-- Of the four parts, only the count and the designator part can hold a codeword of 256 or more. -/
theorem source_encode_large_iff {p : Config.Params} {m : Mode} {cs : List Elem} (e : Eci)
    (hall : ∀ c ∈ cs, Source.Mappable p m c) :
    (∃ v ∈ Source.encode p m cs e, 256 ≤ v) ↔
      (∃ v ∈ Source.countPart m cs.length, 256 ≤ v) ∨ ∃ v ∈ Source.designatorPart e, 256 ≤ v := by
  have hind : ¬ 256 ≤ m.indicator.toNat := Nat.not_le.mpr (m.indicator.isLt.trans (by decide))
  have hpay : ¬ ∃ v ∈ Source.payloadPart p m cs, 256 ≤ v := fun ⟨v, hv, hbig⟩ =>
    absurd (payloadPart_lt hall v hv) (Nat.not_lt.mpr hbig)
  simp only [Source.encode, List.mem_cons, List.mem_append, or_and_right, exists_or, exists_eq_left, hind, hpay, false_or,
    or_false]

/-- Settles O23: `CWBUF` holds the source's codewords as they are, so its large ones are those of the count and of the
designator. -/
theorem encodeOverflowingCodewords : Obligations.EncodeOverflowingCodewords := by
  intro s m t hs ⟨hlen, _, _⟩ h ht
  obtain ⟨hall, rfl⟩ := eq_segment_of_encodes hs (.inl rfl) h ht
  have hcw := segment_toNat hlen hall
  calc (∃ w ∈ segment m s, 256 ≤ w.toNat)
      ↔ ∃ v ∈ (segment m s).map BitVec.toNat, 256 ≤ v := by simp only [List.mem_map, exists_exists_and_eq_and]
    _ ↔ (∃ v ∈ Source.countPart m s.pbuf.length, 256 ≤ v) ∨ ∃ v ∈ Source.designatorPart s.eci, 256 ≤ v := by
      rw [hcw, source_encode_large_iff s.eci hall]
    _ ↔ _ := by rw [countPart_large_iff m hlen, designatorPart_large_iff, or_assoc]

end Sys2Proof.Machine
end

section
/-! The bit serializer (42_bit_serializer.md): `TOBITS` and its OVF fault (R171), and the length of the bit string (R173). -/

namespace Sys2Proof.Machine

/-! ### `TOBITS` in a running state -/

section

variable {s t : State}

theorem exec_tobits_of_fits (hs : s.Running) (hfits : ∀ w ∈ s.cwbuf, FitsGroup w) :
    exec .tobits s = .next { s with obuf := s.cwbuf.map (BitVec.setWidth 8) } := by
  rcases exec_tobits_cases hs with ⟨-, hok⟩ | ⟨_, w, hfirst, -⟩
  · exact hok
  · exact absurd (hfits w hfirst.mem) hfirst.fails

theorem exec_tobits_of_firstFailing (hs : s.Running) {j : Nat} {w : Codeword}
    (hfirst : FirstFailing FitsGroup s.cwbuf j w) :
    exec .tobits s = .next (enterFault .ovf (BitVec.ofNat 32 j) s) := by
  rcases exec_tobits_cases hs with ⟨hall, -⟩ | ⟨k, _, hfirst', herr⟩
  · exact absurd (hall w hfirst.mem) hfirst.fails
  · rw [herr, hfirst'.index_unique hfirst]

/-- A `TOBITS` that did not fault writes the output buffer and nothing else. -/
theorem eq_groups_of_tobits (hs : s.Running) (h : exec .tobits s = .next t) (ht : t.Running) :
    t = { s with obuf := s.cwbuf.map (BitVec.setWidth 8) } := by
  rcases exec_tobits_cases hs with ⟨-, hok⟩ | ⟨_, _, -, herr⟩
  · cases hok.symm.trans h
    rfl
  · cases herr.symm.trans h
    cases ht

/-! ### The counts as numbers (10_state.md R24, R25) -/

/-- `CWN` has room for every count up to `CWDEPTH`. -/
theorem cwn_toNat (h : s.cwbuf.length ≤ Config.cwDepth) : s.cwn.toNat = s.cwbuf.length :=
  Nat.mod_eq_of_lt (h.trans_lt (by decide))

/-- `BITN` has room for eight bits of every group up to `CWDEPTH`. -/
theorem bitn_toNat (h : s.obuf.length ≤ Config.cwDepth) : s.bitn.toNat = 8 * s.obuf.length :=
  Nat.mod_eq_of_lt ((Nat.mul_le_mul_left 8 h).trans_lt (by decide))

theorem bits_length (s : State) : s.bits.length = 8 * s.obuf.length := by
  rw [State.bits, List.length_map, List.length_range]

/-! ### The length law -/

/-- An encode that did not fault had a mode: `ENC.S` with none selected halts (R155). -/
theorem encodes_of_running {i : Instr} (hi : i ∈ [Instr.encN, .encA, .encB, .encK, .encE, .encS]) (hs : s.Running)
    (h : exec i s = .next t) (ht : t.Running) : ∃ m, Encodes s i m := by
  refine exists_encodes hi ?_
  rintro rfl hnone
  obtain ⟨-, hfault, -⟩ := encSelectedFollowsMode.2 s
  cases (hfault hs hnone).symm.trans h
  cases ht

/-- A segment fits `CWBUF` (41_segment_encoder.md R157). -/
theorem cwbuf_length_le_of_encode {i : Instr} (hi : i ∈ [Instr.encN, .encA, .encB, .encK, .encE, .encS])
    (hs : s.Running) (hlen : s.pbuf.length ≤ Config.maxLen) (h : exec i s = .next t) (ht : t.Running) :
    t.cwbuf.length ≤ Config.cwDepth := by
  obtain ⟨m, hm⟩ := encodes_of_running hi hs h ht
  obtain ⟨-, rfl⟩ := eq_segment_of_encodes hs hm h ht
  exact segment_length_le hlen

end

/-! ### The statements -/

/-- Settles O27: the serializer puts out every codeword, or stops at the first one that does not fit a group. -/
theorem tobitsResult : Obligations.TobitsResult := by
  refine ⟨rfl, fun s hs hfits => ?_, fun s j w hs hat hbig hearlier => ?_⟩
  · have hlen : (s.cwbuf.map (BitVec.setWidth 8)).length = s.cwbuf.length := List.length_map _
    refine ⟨_, exec_tobits_of_fits hs hfits, groups_toNat hfits, congrArg (BitVec.ofNat 18) hlen,
      congrArg (fun n => BitVec.ofNat 21 (8 * n)) hlen, ?_, rfl⟩
    rw [bits_eq_toBits, groups_toNat hfits]
  · exact exec_tobits_of_firstFailing hs ⟨hat, Nat.not_lt.mpr hbig, hearlier⟩

/-- Settles O29: the encode leaves a sequence within `CWDEPTH`, and the serializer one group for each of its codewords. -/
theorem bitStringLengthLaw : Obligations.BitStringLengthLaw := by
  intro s t u i hi hs ⟨hlen, _, _⟩ henc ht htob hu
  have hdepth : t.cwbuf.length ≤ Config.cwDepth := cwbuf_length_le_of_encode hi hs hlen henc ht
  have hgroups : u.obuf.length = u.cwbuf.length ∧ u.cwbuf = t.cwbuf := by
    obtain rfl := eq_groups_of_tobits ht htob hu
    exact ⟨List.length_map _, rfl⟩
  obtain ⟨hobn, hcwbuf⟩ := hgroups
  rw [← hcwbuf] at hdepth
  rw [bitn_toNat (hobn.trans_le hdepth), cwn_toNat hdepth, bits_length, hobn]
  exact ⟨rfl, rfl⟩

end Sys2Proof.Machine
end

section
/-! The version estimator (43_version_estimator.md): what `ESTVER` writes (R182), the rows that R181 fixes for every
admissible choice of the open bounds (R8), the order of the rows between them, and the labels of R185. -/

namespace Sys2Proof.Machine

/-! ### The rows of an admissible table -/

theorem one_le_vtLo (p : Config.Params) (i : Nat) : 1 ≤ vtLo p i := by
  rw [vtLo]
  split
  · exact Nat.le_refl 1
  · exact Nat.le_add_left 1 _

theorem versionIndex_of_outside {p : Config.Params} {c : Nat} (h : c = 0 ∨ 480 < c) : Source.versionIndex p c = 0 :=
  if_pos h

/-- The more codewords, the more rows end below their count. -/
theorem versionIndex_mono (p : Config.Params) {c d : Nat} (hc : 1 ≤ c) (hcd : c ≤ d) (hd : d ≤ 480) :
    Source.versionIndex p c ≤ Source.versionIndex p d := by
  rw [Source.versionIndex, Source.versionIndex, if_neg (by omega), if_neg (by omega)]
  refine Nat.succ_le_succ (List.countP_mono_left fun b _ hb => ?_)
  exact decide_eq_true ((of_decide_eq_true hb).trans_le hcd)

section

variable {p : Config.Params} (h : p.admissible = true)

include h

/-- A row whose bounds enclose the count is the answer (R181). -/
theorem versionIndex_of_row {c i : Nat} (hi : i ∈ List.range' 1 15) (hlo : vtLo p i ≤ c) (hhi : c ≤ vtHi p i) :
    Source.versionIndex p c = i := by
  have hc : c ≠ 0 := Nat.ne_of_gt ((one_le_vtLo p i).trans hlo)
  have hrow := (row_holds_iff h hc hi).mp ⟨hlo, hhi⟩
  rw [← versionRow_eq_source h, versionRow, foldl_keep_match _ _ fun _ => row_holds_iff h hc, ← hrow, if_pos hi]

/-- The open bounds lie strictly between those of rows 2 and 14 (R8). -/
theorem vtHi_open_bounds {i : Nat} (hi : 3 ≤ i) (hi' : i ≤ 13) : 32 < vtHi p i ∧ vtHi p i < 437 := by
  obtain ⟨hpw, hlen⟩ := upperBounds_pairwise h
  have hrise {j k : Nat} (hjk : j < k) (hk : k < 15) : vtHi p (j + 1) < vtHi p (k + 1) := by
    rw [vtHi_succ h, vtHi_succ h]
    exact List.pairwise_iff_getElem.mp hpw j k (by omega) (by omega) hjk
  obtain ⟨k, rfl⟩ := Nat.exists_eq_add_of_le' (show 1 ≤ i by omega)
  exact ⟨hrise (j := 1) (by omega) (by omega), hrise (k := 13) (by omega) (by decide)⟩

/-- Row 3 begins at 33, whatever its upper bound. -/
theorem versionIndex_33 : Source.versionIndex p 33 = 3 :=
  versionIndex_of_row h (by decide) (Nat.le_refl 33) (vtHi_open_bounds h (by decide) (by decide)).1

/-- Row 14 ends at 437, whatever its lower bound. -/
theorem versionIndex_437 : Source.versionIndex p 437 = 14 :=
  versionIndex_of_row h (by decide) (vtHi_open_bounds h (i := 13) (by decide) (by decide)).2 (Nat.le_refl 437)

end

/-! ### `ESTVER` in a running state -/

theorem vidx_of_estver {s t : State} (hs : s.Running) (h : exec .estver s = .next t) :
    t.vidx.toNat = Source.versionIndex Config.params s.cwbuf.length := by
  obtain ⟨v, hexec, hv⟩ := exec_estver hs
  cases hexec.symm.trans h
  exact hv

/-! ### The statements -/

/-- Settles O30: the command is `writeVidx` of the source's row. -/
theorem estverWritesRow : Obligations.EstverWritesRow := by
  refine ⟨rfl, fun s hs => ?_⟩
  obtain ⟨v, hexec, hv⟩ := exec_estver hs
  exact ⟨writeVidx v s, hexec, hv, rfl⟩

/-- Settles O31: rows 1, 2 and 15 have fixed bounds, row 3 a fixed start and row 14 a fixed end. -/
theorem estverFixedResults : Obligations.EstverFixedResults := by
  intro s t hs h
  have hrow {i : Nat} (hi : Source.versionIndex Config.params s.cwbuf.length = i) : t.vidx = BitVec.ofNat 4 i := by
    rw [← hi, ← vidx_of_estver hs h, BitVec.ofNat_toNat, BitVec.setWidth_eq]
  have hadm := Config.params_admissible
  refine ⟨fun hc => ?_, fun hlo hhi => ?_, fun hlo hhi => ?_, fun hc => ?_, fun hc => ?_, fun hlo hhi => ?_,
    fun hc => ?_⟩
  · exact hrow (versionIndex_of_outside (.inl hc))
  · exact hrow (versionIndex_of_row hadm (by decide) hlo hhi)
  · exact hrow (versionIndex_of_row hadm (by decide) hlo hhi)
  · exact hrow (hc ▸ versionIndex_33 hadm)
  · exact hrow (hc ▸ versionIndex_437 hadm)
  · exact hrow (versionIndex_of_row hadm (by decide) hlo hhi)
  · exact hrow (versionIndex_of_outside (.inr hc))

/-- Settles O32: the row does not decrease from 33, in row 3, to 437, in row 14. -/
theorem estverMonotone : Obligations.EstverMonotone := by
  intro s u s' u' hs hu hs' hu'
  have hvs := vidx_of_estver hs hs'
  have hvu := vidx_of_estver hu hu'
  refine ⟨fun hlo hle hhi => ?_, fun heq => ?_⟩
  · rw [hvs, hvu]
    refine ⟨?_, versionIndex_mono _ (by omega) hle (by omega), ?_⟩
    · rw [← versionIndex_33 Config.params_admissible]
      exact versionIndex_mono _ (by decide) (by omega) (by omega)
    · rw [← versionIndex_437 Config.params_admissible]
      exact versionIndex_mono _ (by omega) (by omega) (by decide)
  · exact BitVec.eq_of_toNat_eq (by rw [hvs, hvu, heq])

/-- Settles O33: row 0 has a text of its own, and row 1's is put together from its number and its side. -/
theorem labelsOfTheSource : Obligations.LabelsOfTheSource := ⟨rfl, by decide⟩

end Sys2Proof.Machine
end

section
/-! Control and steps (44_control_and_host.md R190, R195, R196): what a step does with the oldest pending event, and the two
control commands `SRST` and `PCLR`. -/

namespace Sys2Proof.Machine

/-! ### A step in terms of its event -/

theorem step_of_nil {s : State} (h : s.hostIn = []) : step s = .next s := by
  rw [step, takeEvent_nil h]

theorem step_of_txn {s : State} {x : HostTxn} {rest : List HostEvent} (h : s.hostIn = .txn x :: rest) :
    step s = serveTxn x { s with hostIn := rest } := by
  rw [step, takeEvent_cons h]

theorem serveTxn_of_ok {x : HostTxn} {i : Instr} (h : decode x = .ok i) (s : State) : serveTxn x s = exec i s := by
  rw [serveTxn, h]

theorem serveTxn_of_error {x : HostTxn} {why : DecodeReject} (h : decode x = .error why) (s : State) :
    serveTxn x s = execRejected why s := by
  rw [serveTxn, h]

/-- The registers that no write changes (R190). -/
theorem decode_write_readOnly {idx : RegIdx}
    (h : idx = 1#4 ∨ idx = 2#4 ∨ idx = 4#4 ∨ idx = 6#4 ∨ idx = 7#4 ∨ idx = 9#4 ∨ idx = 10#4 ∨ idx = 12#4 ∨ idx = 13#4 ∨
      idx = 14#4 ∨ idx = 15#4) (v : Word) : decode (.write idx v) = .error (.readOnlyWrite idx) := by
  rcases h with rfl | rfl | rfl | rfl | rfl | rfl | rfl | rfl | rfl | rfl | rfl <;> rfl

/-- Settles O4: the oldest event is served, and its instruction runs. -/
theorem stepRunsDecodedTransaction : Obligations.StepRunsDecodedTransaction := fun _ _ _ _ hin hx =>
  (step_of_txn hin).trans (serveTxn_of_ok hx _)

/-- Settles O5: no event, an illegal word, which is ignored while halted as a command is, or a write to a read-only
register. -/
theorem stepOtherwise : Obligations.StepOtherwise := by
  refine ⟨fun s => step_of_nil, fun s w rest hin hx => ?_, fun s idx v rest hin hidx => ?_⟩
  · have hstep : step s = execIllegalCommand w { s with hostIn := rest } :=
      (step_of_txn hin).trans (serveTxn_of_error hx _)
    exact ⟨fun hs => hstep.trans (whenRunning_running (s := { s with hostIn := rest }) hs _),
      fun hs => hstep.trans (whenRunning_halted (s := { s with hostIn := rest }) hs _)⟩
  · exact (step_of_txn hin).trans (serveTxn_of_error (decode_write_readOnly hidx v) _)

/-! ### `SRST` and the halted machine (R196, 60_exceptions.md R209) -/

theorem State.Halted.not_running {s : State} (h : s.Halted) : ¬ s.Running := fun hr =>
  Bool.noConfusion (h.symm.trans hr)

/-- `SRST` is the only command executed while halted. -/
theorem exec_command_of_halted {s : State} {i : Instr} (hs : s.Halted) (hcmd : i.isCommand = true) (hne : i ≠ .srst) :
    exec i s = .next s := by
  cases i
  case srst => exact absurd rfl hne
  case selmode | encS | encN | encA | encB | encE | encK | tobits | estver | pclr => exact whenRunning_halted hs _
  all_goals cases hcmd

/-- No other instruction clears `HALT`: the ones that run while halted leave `STATUS`. -/
theorem Effect.eq_srst_of_recovered {s t : State} {i : Instr} (h : Effect s i t) (hs : s.Halted) (ht : t.Running) :
    i = .srst := by
  cases h
  case reset => rfl
  case ignored | cwidxWritten | obidxWritten | replied => exact absurd ht hs.not_running
  all_goals exact absurd ‹s.Running› hs.not_running

/-- A word for `CMD` has no ignored bits (20_memory.md R66). -/
theorem eq_of_clearIgnored_eq_write_cmd {x : HostTxn} {w : Word} (h : x.clearIgnored = .write 0#4 w) :
    x = .write 0#4 w := by
  cases x with
  | read idx => cases h
  | write idx v =>
    simp only [HostTxn.clearIgnored] at h
    split at h
    case h_5 => exact h
    all_goals cases h

/-- The command word of `SRST` is `OP` = 15 with `M` = 0 (30_encoding.md R90, R100). -/
theorem eq_of_decode_srst {x : HostTxn} (h : decode x = .ok .srst) : x = .write 0#4 0x000000F0#32 :=
  eq_of_clearIgnored_eq_write_cmd (encodeOfDecode x .srst h).symm

theorem eq_of_serveTxn_recovered {x : HostTxn} {s t : State} (hs : s.Halted) (h : serveTxn x s = .next t)
    (ht : t.Running) : x = .write 0#4 0x000000F0#32 := by
  rcases serveTxn_cases h with ⟨i, hx, heff⟩ | ⟨_, -, hr, -⟩ | ⟨_, -, -, rfl⟩ | ⟨_, -, rfl⟩
  · exact eq_of_decode_srst (heff.eq_srst_of_recovered hs ht ▸ hx)
  · exact absurd hr hs.not_running
  · exact absurd ht hs.not_running
  · exact absurd ht hs.not_running

/-- Settles O2: `SRST` is `resetMachine`, and of all a step can serve only it and a reset pulse leave the halted state. -/
theorem srstLeavesResetState : Obligations.SrstLeavesResetState := by
  refine ⟨rfl, fun s => ⟨resetMachine s, rfl, rfl, rfl, rfl, rfl, rfl, rfl, rfl, rfl, rfl, rfl, rfl, rfl, rfl⟩, rfl,
    fun s i => exec_command_of_halted, fun s t hs h ht => ?_⟩
  rcases step_cases h with ⟨-, rfl⟩ | ⟨x, rest, hin, hx⟩ | ⟨rest, hin, -⟩
  · exact absurd ht hs.not_running
  · have hsrst : x = .write 0#4 0x000000F0#32 := eq_of_serveTxn_recovered (s := { s with hostIn := rest }) hs hx ht
    exact ⟨rest, .inr (hsrst ▸ hin)⟩
  · exact ⟨rest, .inl hin⟩

/-- Settles O35: `PCLR` is `clearPayload`, unless halted. -/
theorem pclrClearsPayload : Obligations.PclrClearsPayload :=
  ⟨rfl, fun s => ⟨fun hs => ⟨clearPayload s, whenRunning_running hs _, rfl, rfl⟩, fun hs => whenRunning_halted hs _⟩⟩

end Sys2Proof.Machine
end

section
/-! The host's writes (44_control_and_host.md R191 to R193) and reads (R194): what each stores, and that each read returns
the number its row gives. -/

namespace Sys2Proof.Machine

/-! ### Pushes -/

section

variable {s t : State} {e : Elem} {i : Instr}

theorem exec_push_of_room (hs : s.Running) (room : s.pbuf.length < Config.maxLen) :
    exec (.push e) s = .next (appendElem e s) :=
  (whenRunning_running hs _).trans (if_neg (Nat.not_le.mpr room))

theorem exec_push_of_full (hs : s.Running) (full : Config.maxLen ≤ s.pbuf.length) :
    exec (.push e) s = .next (enterFault .pfull (e.setWidth 32) s) :=
  (whenRunning_running hs _).trans (if_pos full)

/-- `PLEN` has room for every count up to `MAXLEN` (10_state.md R21). -/
theorem plen_toNat (h : s.pbuf.length ≤ Config.maxLen) : s.plen.toNat = s.pbuf.length :=
  Nat.mod_eq_of_lt (h.trans_lt (by decide))

theorem appendElem_plen (room : s.pbuf.length < Config.maxLen) :
    (appendElem e s).plen.toNat = s.plen.toNat + 1 := by
  have hlen : (appendElem e s).pbuf.length = s.pbuf.length + 1 := List.length_append
  rw [plen_toNat (hlen.trans_le room), hlen, plen_toNat room.le]

/-- A push leaves every element but its own where it was. -/
theorem appendElem_getElem?_of_ne {k : Nat} (hk : k ≠ s.pbuf.length) : (appendElem e s).pbuf[k]? = s.pbuf[k]? := by
  have hlen : (s.pbuf ++ [e]).length = s.pbuf.length + 1 := List.length_append
  rcases Nat.lt_or_gt_of_ne hk with hlt | hgt
  · exact List.getElem?_append_left hlt
  · rw [appendElem_pbuf, List.getElem?_eq_none (hlen.trans_le hgt), List.getElem?_eq_none hgt.le]

/-- The payload stays, is dropped, or grows by the pushed element. -/
theorem Effect.pbuf_cases (h : Effect s i t) :
    t.pbuf = s.pbuf ∨ t.pbuf = [] ∨ ∃ e, i = .push e ∧ t.pbuf = s.pbuf ++ [e] := by
  cases h with
  | pushed e => exact .inr (.inr ⟨e, rfl, rfl⟩)
  | payloadCleared => exact .inr (.inl rfl)
  | reset => exact .inr (.inl rfl)
  | _ => exact .inl rfl

end

/-- Settles O36: a push is `appendElem` while there is room and PFULL when there is none. -/
theorem pushAppends : Obligations.PushAppends := by
  refine ⟨decode_write_pdata, fun s e hs room => ?_, fun s e hs full => ?_, fun i s t h => (exec_effect h).pbuf_cases⟩
  · exact ⟨appendElem e s, exec_push_of_room hs room, List.getElem?_concat_length,
      fun _ => appendElem_getElem?_of_ne, appendElem_plen room, rfl⟩
  · exact ⟨_, exec_push_of_full hs full.ge, rfl, BitVec.toNat_setWidth_of_le (by decide), rfl⟩

/-! ### `ECI` and the two indices -/

/-- Settles O37: the two writes are `writeEci`, and a read returns the `ECI` word of the two fields. -/
theorem eciWritesAndReadsBack : Obligations.EciWritesAndReadsBack := by
  refine ⟨decode_write_eci, fun s val hs => ⟨whenRunning_running hs _, whenRunning_running hs _,
    ⟨_, exec_readInstr .eci _, eciWord_toNat true val⟩, _, exec_readInstr .eci _, ?_⟩⟩
  exact (eciWord_toNat false val).trans (Nat.zero_add _)

/-- Settles O38: the writes do not ask whether the machine is halted, and a window at or above its count reads 0. -/
theorem indexWrites : Obligations.IndexWrites := by
  refine ⟨fun v => ⟨rfl, rfl⟩, fun s n => ⟨rfl, rfl, fun hle => ?_, fun hle => ?_⟩⟩
  · obtain ⟨-, hzero, -, -⟩ := windowsReadZeroOutside { s with cwidx := n }
    exact hzero hle
  · obtain ⟨-, -, -, hzero⟩ := windowsReadZeroOutside { s with obidx := n }
    exact hzero hle

/-! ### Reads as numbers (R194) -/

theorem statusBits_toNat (s : State) :
    s.statusBits.toNat = (if s.status.halt then 1 else 0) + 16 * causeNumber s.status.cause := by
  rw [State.statusBits, BitVec.toNat_append, BitVec.toNat_append, BitVec.toNat_append,
    ← Nat.shiftLeft_add_eq_or_of_lt (BitVec.isLt _), ← Nat.shiftLeft_add_eq_or_of_lt (BitVec.isLt _),
    ← Nat.shiftLeft_add_eq_or_of_lt (BitVec.isLt _), causeBits_toNat, BitVec.toNat_ofBool]
  cases s.status.halt <;> simp [Nat.shiftLeft_eq] <;> omega

theorem cwdata_toNat (s : State) : s.cwdata.toNat = readNumber .cwdata s := by
  rw [State.cwdata, List.getD_eq_getElem?_getD, readNumber]
  cases s.cwbuf[s.cwidx.toNat]? <;> rfl

theorem obdata_toNat (s : State) : s.obdata.toNat = readNumber .obdata s := by
  rw [State.obdata, List.getD_eq_getElem?_getD, readNumber]
  cases s.obuf[s.obidx.toNat]? <;> rfl

/-- A read's word is its register's number: a narrow field is extended with zeros, and a count fits its register. -/
theorem readWord_toNat {s : State} (h : Memory.wf s) (r : Reg) : (readWord s r).toNat = readNumber r s := by
  obtain ⟨hp, hc, ho⟩ := h
  have hext {w : Nat} (x : BitVec w) (hw : w ≤ 32) : (x.setWidth 32).toNat = x.toNat :=
    BitVec.toNat_setWidth_of_le hw
  cases r with
  | status => exact statusBits_toNat s
  | plen => exact (hext _ (by decide)).trans (plen_toNat hp)
  | eci => exact eciWord_toNat s.eci.v s.eci.val
  | mode => exact (hext _ (by decide)).trans (modeBits_toNat s)
  | cwn => exact (hext _ (by decide)).trans (cwn_toNat hc)
  | cwidx => exact hext _ (by decide)
  | cwdata => exact (hext _ (by decide)).trans (cwdata_toNat s)
  | bitn => exact (hext _ (by decide)).trans (bitn_toNat ho)
  | obidx => exact hext _ (by decide)
  | obdata => exact (hext _ (by decide)).trans (obdata_toNat s)
  | ver => exact hext _ (by decide)
  | _ => rfl

/-- Settles O40: each row pairs a register with the read of it, and a read replies its register's word. -/
theorem readsReturnTheirRegister : Obligations.ReadsReturnTheirRegister := by
  intro s hwf q hq
  have hrow : q.2 = readInstr q.1 := by
    revert q
    decide
  rw [hrow]
  exact ⟨rfl, _, exec_readInstr q.1 s, readWord_toNat hwf q.1, rfl⟩

end Sys2Proof.Machine
end

section
/-! Faults and the halted machine (60_exceptions.md): what a transaction that halts a running machine raised and
recorded (R201, R203, R205), the order in which a write to `CMD` is checked (R206), and what a halted machine still
does (R207 to R209). -/

namespace Sys2Proof.Machine

/-! ### The words written to `CMD` (30_encoding.md R100, R101) -/

section

variable {w : Word} {i : Instr} {why : DecodeReject} {x : HostTxn}

theorem decodeCommand_of_not_mem (h : w ∉ commandTable.map Prod.fst) :
    decodeCommand w = .error (.illegalCommand w) := by
  have hnone : commandTable.find? (fun row => row.1 == w) = none :=
    List.find?_eq_none.mpr fun row hrow heq => h (beq_iff_eq.mp heq ▸ List.mem_map_of_mem hrow)
  rw [decodeCommand, hnone]

theorem eq_of_decodeCommand_error (h : decodeCommand w = .error why) : why = .illegalCommand w := by
  rw [decodeCommand] at h
  split at h <;> cases h
  rfl

/-- Only a write to `CMD` is an illegal command, and the word it names is the one written. -/
theorem eq_of_decode_illegal (h : decode x = .error (.illegalCommand w)) : x = .write 0#4 w := by
  cases x with
  | read idx => cases h
  | write idx v =>
    change decodeWrite idx v = _ at h
    unfold decodeWrite at h
    split at h
    case h_1 =>
      cases eq_of_decodeCommand_error h
      rfl
    all_goals cases h

theorem isCommand_of_encode (h : encode i = .write 0#4 w) : i.isCommand = true := by
  cases i
  case selmode | encS | encN | encA | encB | encE | encK | tobits | estver | pclr | srst => rfl
  all_goals cases h

end

/-! ### What halts a running machine -/

section

variable {s t : State} {i : Instr} {x : HostTxn}

/-- Which transaction raises what does not depend on the events after it. -/
theorem raisedBy_hostIn {rest : List HostEvent} {c : Cause} {info : Word} :
    RaisedBy { s with hostIn := rest } x c info ↔ RaisedBy s x c info := by
  cases c <;> exact Iff.rfl

/-- An instruction that halts a running machine raised a cause of its row in the fault table (R201), and did nothing but
enter the fault. -/
theorem Effect.raisedBy (h : Effect s i t) (hx : decode x = .ok i) (hs : s.Running) (ht : t.Halted) :
    ∃ c info, RaisedBy s x c info ∧ t = enterFault c info s := by
  cases h with
  | unmappable _ m k e _ encodes first =>
    have hcommand : decode x = .ok (encodeCommand m) ∨ (decode x = .ok .encS ∧ s.mode = some m) := by
      rcases encodes with rfl | ⟨rfl, hm⟩
      · exact .inl hx
      · exact .inr ⟨hx, hm⟩
    exact ⟨.map, _, ⟨m, k, e, hcommand, first.at_index, first.fails, first.earlier, rfl⟩, rfl⟩
  | noMode _ unselected => exact ⟨.mode, _, ⟨hx, unselected, rfl⟩, rfl⟩
  | overflowed k w _ first =>
    exact ⟨.ovf, _, ⟨hx, k, w, first.at_index, Nat.not_lt.mp first.fails, first.earlier, rfl⟩, rfl⟩
  | payloadFull e _ full =>
    exact ⟨.pfull, _, ⟨e, hx, full, BitVec.toNat_setWidth_of_le (by decide)⟩, rfl⟩
  | reset => cases ht
  | _ => exact absurd hs (State.Halted.not_running ht)

theorem raisedBy_of_serveTxn_halts (h : serveTxn x s = .next t) (hs : s.Running) (ht : t.Halted) :
    ∃ c info, RaisedBy s x c info ∧ t = enterFault c info s := by
  rcases serveTxn_cases h with ⟨i, hx, heff⟩ | ⟨w, hx, -, rfl⟩ | ⟨_, -, hh, -⟩ | ⟨_, -, rfl⟩
  · exact heff.raisedBy hx hs ht
  · exact ⟨.cmd, w, ⟨eq_of_decode_illegal hx, hx⟩, rfl⟩
  · exact absurd hs hh.not_running
  · exact absurd hs ht.not_running

end

/-! ### What a halted machine still does -/

section

variable {s t : State} {i : Instr} {x : HostTxn} {w : Word}

/-- While halted `SRST` resets, and no other instruction touches the recorded fault. -/
theorem Effect.keeps_fault_or_resets (h : Effect s i t) (hs : s.Halted) :
    (t.status = s.status ∧ t.finfo = s.finfo) ∨ (i = .srst ∧ t = resetMachine s) := by
  cases h
  case reset => exact .inr ⟨rfl, rfl⟩
  case ignored | cwidxWritten | obidxWritten | replied => exact .inl ⟨rfl, rfl⟩
  all_goals exact absurd ‹s.Running› hs.not_running

theorem serveTxn_keeps_fault_or_resets (h : serveTxn x s = .next t) (hs : s.Halted) :
    (t.status = s.status ∧ t.finfo = s.finfo) ∨ (x = .write 0#4 0x000000F0#32 ∧ t = resetMachine s) := by
  rcases serveTxn_cases h with ⟨i, hx, heff⟩ | ⟨_, -, hr, -⟩ | ⟨_, -, -, rfl⟩ | ⟨_, -, rfl⟩
  · exact (heff.keeps_fault_or_resets hs).imp_right fun ⟨hi, ht⟩ => ⟨eq_of_decode_srst (hi ▸ hx), ht⟩
  · exact absurd hr hs.not_running
  · exact .inl ⟨rfl, rfl⟩
  · exact .inl ⟨rfl, rfl⟩

/-- A word written to `CMD` is a command or an illegal word, and while halted both are ignored, but for `SRST`. -/
theorem serveTxn_cmd_of_halted (hs : s.Halted) (hw : w ≠ 0x000000F0#32) : serveTxn (.write 0#4 w) s = .next s := by
  cases hx : decode (.write 0#4 w) with
  | error why =>
    rw [serveTxn_of_error hx, eq_of_decodeCommand_error hx]
    exact whenRunning_halted hs _
  | ok i =>
    have hne : i ≠ .srst := by
      rintro rfl
      cases eq_of_decode_srst hx
      exact hw rfl
    rw [serveTxn_of_ok hx, exec_command_of_halted hs (isCommand_of_encode (encode_of_decodeCommand hx)) hne]

theorem serveTxn_eci_of_halted (hs : s.Halted) (v : Word) : serveTxn (.write 5#4 v) s = .next s := by
  rw [serveTxn_of_ok (decode_write_eci v), decodeEci]
  split
  · exact whenRunning_halted hs _
  · exact whenRunning_halted hs _

end

/-! ### The statements -/

/-- Settles O45: of all a step of a running machine can serve only a transaction that raises a fault halts it. -/
theorem faultEntryIsPrecise : Obligations.FaultEntryIsPrecise := by
  intro s t hs h ht
  rcases step_cases h with ⟨-, rfl⟩ | ⟨x, rest, hin, hx⟩ | ⟨_, -, rfl⟩
  · exact absurd hs ht.not_running
  · obtain ⟨c, info, hraised, rfl⟩ := raisedBy_of_serveTxn_halts (s := { s with hostIn := rest }) hx hs ht
    exact ⟨x, rest, c, info, hin, raisedBy_hostIn.mp hraised, rfl⟩
  · cases ht

/-- Settles O25: an encode with a mode halts by MAP only, and `ENC.S` without one by MODE. -/
theorem encodeFaultIsPrecise : Obligations.EncodeFaultIsPrecise := by
  intro s i t hi hs h ht
  by_cases hmode : i = .encS → s.mode ≠ none
  · obtain ⟨m, hm⟩ := exists_encodes hi hmode
    rcases exec_encodes_cases hs hm with ⟨-, hok⟩ | ⟨_, _, -, herr⟩
    · cases hok.symm.trans h
      exact absurd hs (State.Halted.not_running ht)
    · cases herr.symm.trans h
      exact .inl ⟨rfl, rfl⟩
  · obtain ⟨rfl, hsel⟩ := Classical.not_imp.mp hmode
    obtain ⟨-, hfault, -⟩ := encSelectedFollowsMode.2 s
    cases (hfault hs (not_not.mp hsel)).symm.trans h
    exact .inr ⟨rfl, rfl, rfl⟩

/-- Settles O10: `SRST` is `resetMachine`, the halted machine ignores the other words, and a running one raises CMD for
a word outside the command table and MODE for `ENC.S` with no mode. -/
theorem commandWritePriority : Obligations.CommandWritePriority := by
  intro w s
  refine ⟨fun hw => ?_, fun hw hs => serveTxn_cmd_of_halted hs hw, fun hs hw => ?_, fun hs hw hm => ?_⟩
  · rw [hw]
    rfl
  · exact (illegalWordsByField w s hs).2 (decodeCommand_of_not_mem hw)
  · obtain ⟨hx, hencS⟩ := encSelectedFollowsMode
    obtain ⟨-, hfault, -⟩ := hencS s
    rw [hw, serveTxn_of_ok hx, hfault hs hm]

/-- Settles O43: what is ignored while halted is under `whenRunning`, and the index writes and the reads are not. -/
theorem haltedIsFrozen : Obligations.HaltedIsFrozen := fun s hs =>
  ⟨fun _ => serveTxn_cmd_of_halted hs, fun _ => whenRunning_halted hs _, serveTxn_eci_of_halted hs, fun _ => rfl,
    fun _ => rfl, fun hwf r => ⟨_, serveTxn_read r s, readWord_toNat hwf r, rfl⟩⟩

/-- Settles O44: no event keeps the state, a transaction keeps the fault or is `SRST`, and a reset pulse resets. -/
theorem firstFaultIsKept : Obligations.FirstFaultIsKept := by
  intro s t hs h
  rcases step_cases h with ⟨-, rfl⟩ | ⟨x, rest, hin, hx⟩ | ⟨rest, hin, rfl⟩
  · exact .inl ⟨rfl, rfl⟩
  · rcases serveTxn_keeps_fault_or_resets (s := { s with hostIn := rest }) hx hs with hkept | ⟨rfl, rfl⟩
    · exact .inl hkept
    · exact .inr ⟨rest, .inr hin, rfl⟩
  · exact .inr ⟨rest, .inl hin, rfl⟩

end Sys2Proof.Machine
end

section
/-! A step that serves a reset pulse (70_reset_and_hazards.md R230). -/

namespace Sys2Proof.Machine

theorem step_of_hwReset {s : State} {rest : List HostEvent} (hin : s.hostIn = .hwReset :: rest) :
    step s = .next (resetMachine { s with hostIn := rest }) := by
  rw [step, takeEvent_cons hin]
  rfl

@[simp] theorem resetMachine_statusBits (s : State) : (resetMachine s).statusBits = 0#32 := by
  rw [State.statusBits, resetMachine_status]
  decide

/-- Settles O1: the step is `resetMachine` on the state without the pulse; the counts, `MODE` and `STATUS` as words are
computed from its fields. -/
theorem hardwareResetValues : Obligations.HardwareResetValues := fun s rest hin =>
  ⟨resetMachine { s with hostIn := rest }, step_of_hwReset hin, rfl, resetMachine_pbuf _, resetMachine_eci _,
    resetMachine_mode _, rfl, rfl, resetMachine_cwbuf _, rfl, rfl, resetMachine_obuf _, resetMachine_vidx _,
    resetMachine_status _, resetMachine_statusBits _, resetMachine_finfo _, resetMachine_cwidx _, resetMachine_obidx _,
    resetMachine_hostIn _, resetMachine_hrdata _⟩

end Sys2Proof.Machine
end
